-- ==== Sys2Proof/Word.lean ====
section
/-! DEFINITION. The widths of the machine: `00_scope.md` R6.

A *value* of the spec (R9: an integer in [-2^31, 2^31 - 1]) is held as its 32-bit pattern, a `Word`;
`BitVec.toInt` reads the value back and `BitVec.toNat` is the spec's `bits32`. -/

namespace Sys2Proof

/-- A 32-bit value: a register, a scratch entry, a data memory cell or the program counter (R6, R20). -/
abbrev Word := BitVec 32

/-- One byte of the instruction stream (R50). -/
abbrev Byte := BitVec 8

/-- One 16-bit instruction word, bits 15 down to 0 (R8, R80). -/
abbrev InstrWord := BitVec 16

/-- One 12-bit immediate chunk (R14, R84). -/
abbrev Chunk := BitVec 12

/-- An index of the scratch file, 0 to 7 (R29, R88). -/
abbrev BankIndex := Fin 8

end Sys2Proof
end

