-- ==== Sys2Proof/Machine/Arith.lean ====
section
/-! DEFINITION. Normalisation and extension of numbers: `00_scope.md` R9 to R11. -/

namespace Sys2Proof.Machine

/-- The normalisation function of R10, in its closed form. -/
def wrap32 (x : Int) : Int := (x + 2 ^ 31) % 2 ^ 32 - 2 ^ 31

/-- The word that holds an integer after normalisation (R10, R126: every write stores `wrap32(v)`). -/
def ofVal (x : Int) : Word := BitVec.ofInt 32 (wrap32 x)

/-- `sext_n(b)` of R11: the integer an `n`-bit pattern denotes in two's complement. -/
def sext (n b : Nat) : Int := if b < 2 ^ (n - 1) then (b : Int) else (b : Int) - 2 ^ n

/-- The unsigned number a string of 12-bit chunks denotes, first chunk most significant (R8, R142). -/
def chunksNat (ks : List Chunk) : Nat := ks.foldl (fun acc k => acc * 4096 + k.toNat) 0

/-- `sext_bits` of R11 on a string of 12-bit chunks. -/
def sextBits (ks : List Chunk) : Int := sext (12 * ks.length) (chunksNat ks)

end Sys2Proof.Machine
end

