-- ==== Sys2Proof/Syntax.lean ====
section
/-! DEFINITION. The instructions as syntax: one constructor of `Instr` per row of spec/opcode_table.json
(`30_encoding.md` R82, R91). No meaning stands here. -/

namespace Sys2Proof

/-- The eight register names (`10_state.md` R21). `M` is the memory-access pseudo-register, `T` the
dual-use register whose operand is the selected scratch entry. -/
inductive Reg where
  | D | C | A | M | V | T | S | L
deriving DecidableEq, Repr

/-- The eight comparison codes (R90): never, `>`, `==`, `>=`, `<`, `!=`, `<=`, always. -/
inductive CmpCode where
  | nv | gt | eq | ge | lt | ne | le | aw
deriving DecidableEq, Repr

/-- The fourteen rows of the opcode table. -/
inductive Instr where
  /-- LoadImmediate (R140). -/
  | inpv (imm12 : Chunk) (cont : Bool)
  /-- Copy (R160). -/
  | copy (src dst : Reg)
  /-- Jump (R170). -/
  | jump (target flag : Reg)
  /-- Compare (R180). -/
  | comp (lhs : Reg) (code : CmpCode) (rhs : Reg)
  /-- AluOp, add (R191). -/
  | addr (lhs rhs dst : Reg)
  /-- AluOp, subtract (R192). -/
  | subr (lhs rhs dst : Reg)
  /-- AluOp, multiply (R193). -/
  | mulr (lhs rhs dst : Reg)
  /-- AluOp, divide (R194). -/
  | divr (lhs rhs dst : Reg)
  /-- AluOp, logical right shift (R195). -/
  | rmvr (lhs rhs dst : Reg)
  /-- AluOp, logical left shift (R196). -/
  | lmvr (lhs rhs dst : Reg)
  /-- AluOp, bitwise and (R197). -/
  | andr (lhs rhs dst : Reg)
  /-- AluOp, bitwise or (R198). -/
  | or_r (lhs rhs dst : Reg)
  /-- ExtendImmediate (R141). -/
  | exti (imm12 : Chunk) (cont : Bool)
  /-- SetBank (R220). -/
  | sett (index : BankIndex)
deriving DecidableEq, Repr

/-- The `dst` field, for the instructions that have one: Copy and AluOp (R83, R85, R87). -/
def Instr.dst? : Instr → Option Reg
  | .inpv _ _ => none
  | .copy _ dst => some dst
  | .jump _ _ => none
  | .comp _ _ _ => none
  | .addr _ _ dst => some dst
  | .subr _ _ dst => some dst
  | .mulr _ _ dst => some dst
  | .divr _ _ dst => some dst
  | .rmvr _ _ dst => some dst
  | .lmvr _ _ dst => some dst
  | .andr _ _ dst => some dst
  | .or_r _ _ dst => some dst
  | .exti _ _ => none
  | .sett _ => none

/-- The register fields an instruction reads, in the order of the word (R83; the list of "any register
field" in R21). -/
def Instr.reads : Instr → List Reg
  | .inpv _ _ => []
  | .copy src _ => [src]
  | .jump target flag => [target, flag]
  | .comp lhs _ rhs => [lhs, rhs]
  | .addr lhs rhs _ => [lhs, rhs]
  | .subr lhs rhs _ => [lhs, rhs]
  | .mulr lhs rhs _ => [lhs, rhs]
  | .divr lhs rhs _ => [lhs, rhs]
  | .rmvr lhs rhs _ => [lhs, rhs]
  | .lmvr lhs rhs _ => [lhs, rhs]
  | .andr lhs rhs _ => [lhs, rhs]
  | .or_r lhs rhs _ => [lhs, rhs]
  | .exti _ _ => []
  | .sett _ => []

end Sys2Proof
end

