-- ==== Sys2Proof/Decode.lean ====
section
/-! DEFINITION. The operand code tables, the decoder (total on any bytes, rejecting by name) and the
encoder, written from the same tables: `30_encoding.md` R80 to R99, `20_memory.md` R54.
Every numeric code is a decision of the spec (D1, D3 to D7, D30): notes/assumptions/15.md. -/

namespace Sys2Proof

/-- Why bytes give no instruction. -/
inductive DecodeReject where
  /-- The opcode field is 7 (R94). -/
  | illegalOpcode
  /-- Fewer than two bytes are left (R80: every instruction is exactly two). -/
  | truncated
deriving DecidableEq, Repr

/-! ### Operand code tables -/

/-- The 3-bit code of a register name (R21, R83). -/
def Reg.code : Reg → BitVec 3
  | .D => 0 | .C => 1 | .A => 2 | .M => 3 | .V => 4 | .T => 5 | .S => 6 | .L => 7

/-- The register name of a 3-bit code (R21): all eight codes are names. -/
def Reg.ofCode (b : BitVec 3) : Reg :=
  match (b.toFin : Fin 8) with
  | 0 => .D | 1 => .C | 2 => .A | 3 => .M | 4 => .V | 5 => .T | 6 => .S | 7 => .L

/-- The 3-bit code of a comparison (R90). -/
def CmpCode.code : CmpCode → BitVec 3
  | .nv => 0 | .gt => 1 | .eq => 2 | .ge => 3 | .lt => 4 | .ne => 5 | .le => 6 | .aw => 7

/-- The comparison of a 3-bit code (R90). -/
def CmpCode.ofCode (b : BitVec 3) : CmpCode :=
  match (b.toFin : Fin 8) with
  | 0 => .nv | 1 => .gt | 2 => .eq | 3 => .ge | 4 => .lt | 5 => .ne | 6 => .le | 7 => .aw

/-- The AluOp instruction of a 3-bit operation code (R91). -/
def aluOfCode (aop : BitVec 3) (lhs rhs dst : Reg) : Instr :=
  match (aop.toFin : Fin 8) with
  | 0 => .addr lhs rhs dst
  | 1 => .subr lhs rhs dst
  | 2 => .mulr lhs rhs dst
  | 3 => .divr lhs rhs dst
  | 4 => .rmvr lhs rhs dst
  | 5 => .lmvr lhs rhs dst
  | 6 => .andr lhs rhs dst
  | 7 => .or_r lhs rhs dst

/-! ### The decoder -/

/-- The decode function of R93, total on 16-bit words. Pad bits are not looked at (R89). -/
def decodeWord (w : InstrWord) : Except DecodeReject Instr :=
  let op : BitVec 3 := w.extractLsb 15 13
  let f1 : BitVec 3 := w.extractLsb 12 10
  let f2 : BitVec 3 := w.extractLsb 9 7
  let f3 : BitVec 3 := w.extractLsb 6 4
  let f4 : BitVec 3 := w.extractLsb 3 1
  let imm12 : Chunk := w.extractLsb 12 1
  let cont : Bool := w.getLsbD 0
  match (op.toFin : Fin 8) with
  | 0 => .ok (.inpv imm12 cont)
  | 1 => .ok (.copy (.ofCode f1) (.ofCode f2))
  | 2 => .ok (.jump (.ofCode f1) (.ofCode f2))
  | 3 => .ok (.comp (.ofCode f1) (.ofCode f2) (.ofCode f3))
  | 4 => .ok (aluOfCode f1 (.ofCode f2) (.ofCode f3) (.ofCode f4))
  | 5 => .ok (.exti imm12 cont)
  | 6 => .ok (.sett f1.toFin)
  | 7 => .error .illegalOpcode

/-- The word of two consecutive bytes: most significant byte first (R54). -/
def wordOfBytes (hi lo : Byte) : InstrWord := hi ++ lo

/-- Decode from the front of a byte stream: the instruction and the bytes after it. -/
def decodeBytes : List Byte → Except DecodeReject (Instr × List Byte)
  | hi :: lo :: rest =>
    match decodeWord (wordOfBytes hi lo) with
    | .ok i => .ok (i, rest)
    | .error e => .error e
  | _ => .error .truncated

/-- Decode a whole byte stream, word after word; a failure carries the byte offset of the offending word
(R94: "fatal, reported with the byte offset"). `offset` is where `image` begins. -/
def decodeProgramFrom : Nat → List Byte → Except (DecodeReject × Nat) (List Instr)
  | _, [] => .ok []
  | offset, [_] => .error (.truncated, offset)
  | offset, hi :: lo :: rest =>
    match decodeWord (wordOfBytes hi lo) with
    | .error e => .error (e, offset)
    | .ok i =>
      match decodeProgramFrom (offset + 2) rest with
      | .error e => .error e
      | .ok is => .ok (i :: is)

/-- Decode a whole byte stream from offset 0. -/
def decodeProgram (image : List Byte) : Except (DecodeReject × Nat) (List Instr) :=
  decodeProgramFrom 0 image

/-! ### The encoder -/

/-- Format I (R84): opcode, 12-bit chunk, continuation flag. -/
def formatI (op : BitVec 3) (imm12 : Chunk) (cont : Bool) : InstrWord :=
  op ++ imm12 ++ BitVec.ofBool cont

/-- Format RR (R85): opcode, two register codes, seven zero pad bits. -/
def formatRR (op : BitVec 3) (r1 r2 : Reg) : InstrWord :=
  op ++ r1.code ++ r2.code ++ (0 : BitVec 7)

/-- Format CMP (R86): opcode, left register, comparison code, right register, four zero pad bits. -/
def formatCMP (op : BitVec 3) (lhs : Reg) (code : CmpCode) (rhs : Reg) : InstrWord :=
  op ++ lhs.code ++ code.code ++ rhs.code ++ (0 : BitVec 4)

/-- Format ALU (R87): opcode, operation code, three register codes, one zero pad bit. -/
def formatALU (op aop : BitVec 3) (lhs rhs dst : Reg) : InstrWord :=
  op ++ aop ++ lhs.code ++ rhs.code ++ dst.code ++ (0 : BitVec 1)

/-- Format B (R88): opcode, bank index, ten zero pad bits. -/
def formatB (op : BitVec 3) (index : BankIndex) : InstrWord :=
  op ++ (BitVec.ofFin index : BitVec 3) ++ (0 : BitVec 10)

/-- The canonical word of an instruction (R98): its fields, every pad bit 0. -/
def encode : Instr → InstrWord
  | .inpv imm12 cont => formatI 0 imm12 cont
  | .copy src dst => formatRR 1 src dst
  | .jump target flag => formatRR 2 target flag
  | .comp lhs code rhs => formatCMP 3 lhs code rhs
  | .addr lhs rhs dst => formatALU 4 0 lhs rhs dst
  | .subr lhs rhs dst => formatALU 4 1 lhs rhs dst
  | .mulr lhs rhs dst => formatALU 4 2 lhs rhs dst
  | .divr lhs rhs dst => formatALU 4 3 lhs rhs dst
  | .rmvr lhs rhs dst => formatALU 4 4 lhs rhs dst
  | .lmvr lhs rhs dst => formatALU 4 5 lhs rhs dst
  | .andr lhs rhs dst => formatALU 4 6 lhs rhs dst
  | .or_r lhs rhs dst => formatALU 4 7 lhs rhs dst
  | .exti imm12 cont => formatI 5 imm12 cont
  | .sett index => formatB 6 index

/-- The bits of a word that a decoded instruction depends on: all but the pad bits (R84 to R89). -/
def fieldMask : Instr → InstrWord
  | .inpv _ _ => 0xFFFF
  | .copy _ _ => 0xFF80
  | .jump _ _ => 0xFF80
  | .comp _ _ _ => 0xFFF0
  | .addr _ _ _ => 0xFFFE
  | .subr _ _ _ => 0xFFFE
  | .mulr _ _ _ => 0xFFFE
  | .divr _ _ _ => 0xFFFE
  | .rmvr _ _ _ => 0xFFFE
  | .lmvr _ _ _ => 0xFFFE
  | .andr _ _ _ => 0xFFFE
  | .or_r _ _ _ => 0xFFFE
  | .exti _ _ => 0xFFFF
  | .sett _ => 0xFC00

/-- The first byte of a word in the stream, `w[15:8]` (R54). -/
def highByte (w : InstrWord) : Byte := w.extractLsb 15 8

/-- The second byte of a word in the stream, `w[7:0]` (R54). -/
def lowByte (w : InstrWord) : Byte := w.extractLsb 7 0

/-- A word as it stands in the stream (R54). -/
def bytesOfWord (w : InstrWord) : List Byte := [highByte w, lowByte w]

/-- The program image of a list of instructions: their words in program order "with no padding,
alignment, or header" (R98). -/
def encodeProgram : List Instr → List Byte
  | [] => []
  | i :: is => bytesOfWord (encode i) ++ encodeProgram is

/-! ### The host's question -/

/-- The word of a row's bits as spec/opcode_table.json numbers them: one 16-bit word, the bits from
`nbits` up being 0. -/
def tableWord (nbits w : Nat) : InstrWord := BitVec.ofNat 16 (w % 2 ^ nbits)

/-- The instruction the decoder reads from a row's bits, laid out as the stream stores them. -/
def decodeTableWord (nbits w : Nat) : Option Instr :=
  match decodeBytes (bytesOfWord (tableWord nbits w)) with
  | .ok (i, _) => some i
  | .error _ => none

end Sys2Proof
end

