-- ==== Sys2Proof/Config.lean ====
section
/-! DEFINITION. What is fixed for the machine and is not state: `00_scope.md` R6, R7, R38.

The spec leaves no value open: every point its source is silent on has a decision (`92_eei_decisions.md`
D1 to D33) and this model takes the decided default of each. So there is no free value here, and no
`opaque` constant: see notes/assumptions/26.md. -/

namespace Sys2Proof.Config

/-- The largest allowed image length in bytes, 2^31 - 2 (R7, decision D28). -/
def maxImageBytes : Nat := 2147483646

/-- Bytes of one instruction (R80). -/
def instrBytes : Nat := 2

/-- What a data memory cell that nothing has written reads as (R34, R57: "default value 0"). -/
def unwrittenCell : Word := 0

/-- What every register and scratch entry holds right after reset (R38, decision D11). -/
def resetValue : Word := 0

end Sys2Proof.Config
end

