-- ==== Sys2Proof/Machine/State.lean ====
section
/-! DEFINITION. The state of the core as plain data, every element of the tuple of `10_state.md` R20 under
the spec's own name, the reasons a step can stop, and the state right after reset (R38). -/

namespace Sys2Proof.Machine

/-- The three faults of the core (`60_exceptions.md` R230). A fault of the core is not an `Outcome.fault`:
it is a next state whose `STATUS` is `faulted` (R231). -/
inductive FaultCause where
  /-- The fetched word has opcode 7 (R232). -/
  | decodeError
  /-- `pc` is not the image length and not a valid fetch offset (R233). -/
  | fetchFault
  /-- A Copy or AluOp word with `dst = C` (R234). -/
  | reservedOperand
deriving DecidableEq, Repr

/-- `STATUS` (R33): running, ended normally, or aborted with the cause, the offset and the word if one was
fetched. -/
inductive Status where
  | running
  | halted
  | faulted (cause : FaultCause) (fpc : Word) (fword : Option InstrWord)
deriving DecidableEq, Repr

/-- The data memory: pairs of a cell address and the value there, addresses strictly rising and no entry
equal to what an unlisted cell reads as (R34, R50, R52: one address names one whole 32-bit value). -/
abbrev DMem := List (Nat × Word)

/-- The reasons the machine leaves the step function with no next state. -/
inductive Fault where
  /-- Raised by `step` when the image is longer than R7 allows (2^31 - 2 bytes): no run of the spec has
  such an image. Safe: nothing is claimed of such a run. -/
  | imageTooLong
deriving DecidableEq, Repr

/-- The reasons an instruction is given no meaning. -/
inductive Refusal where
  /-- Raised by an arm of `exec` for an instruction with no meaning yet; no arm raises it. Safe. -/
  | notModelled (mnemonic : String)
deriving DecidableEq, Repr

/-- The complete state of the core (R20), and the program image it runs (R7, R35: a parameter of the run
which no step changes; it stands here because `step` takes nothing but a state). -/
structure State where
  /-- General accumulator, register code 0 (R22). -/
  D : Word
  /-- Comparison-flag register, register code 1 (R23). -/
  C : Word
  /-- Address register, register code 2 (R24). -/
  A : Word
  /-- Immediate-result register, register code 4 (R26). -/
  V : Word
  /-- General register, register code 6 (R27). -/
  S : Word
  /-- General register, register code 7 (R27). -/
  L : Word
  /-- Bank index: the selector half of register code 5 (R28, R29). -/
  BANK : BankIndex
  /-- Secondary scratch file: the storage half of register code 5 (R28, R30). -/
  SCR : Vector Word 8
  /-- Program counter, a byte offset into the image (R31). -/
  pc : Word
  /-- Pending-immediate accumulator: the 12-bit chunks appended so far, first chunk first (R32). -/
  PEND : List Chunk
  /-- Running, halted or faulted (R33). -/
  STATUS : Status
  /-- Data memory (R34). -/
  DMEM : DMem
  /-- The program image; its length is the spec's `LEN` (R7). -/
  IMEM : List Byte
deriving DecidableEq, Repr

/-- The state right after reset (R38), with no image bound: the host supplies one (R260, R263), which is
`State.boot`. -/
def State.reset : State where
  D := Config.resetValue
  C := Config.resetValue
  A := Config.resetValue
  V := Config.resetValue
  S := Config.resetValue
  L := Config.resetValue
  BANK := 0
  SCR := Vector.replicate 8 Config.resetValue
  pc := 0
  PEND := []
  STATUS := .running
  DMEM := []
  IMEM := []

end Sys2Proof.Machine
end

