-- ==== Sys2Proof/Machine/Ops.lean ====
section
/-! DEFINITION. The operations every instruction shares: data memory, the fetch, the pc update, raising a
fault, reset with an image. `20_memory.md`, `40_pipeline.md`, `60_exceptions.md` R231.

There is no return from a fault: `Faulted` is absorbing and only reset leaves it (R239). -/

namespace Sys2Proof.Machine

/-! ### Data memory -/

/-- `MemRead` (R57): the cell's value, 0 where nothing was stored. -/
def DMem.read : DMem → Nat → Word
  | [], _ => Config.unwrittenCell
  | (b, v) :: m, a => if a = b then v else DMem.read m a

/-- Put an entry where the rising order of addresses wants it. -/
def DMem.insert (a : Nat) (v : Word) : DMem → DMem
  | [] => [(a, v)]
  | (b, u) :: m => if a < b then (a, v) :: (b, u) :: m else (b, u) :: DMem.insert a v m

/-- `MemWrite` (R58): one cell changes. A cell set to what an unwritten one reads as is not listed, so
equal memories are equal lists. -/
def DMem.write (m : DMem) (a : Nat) (v : Word) : DMem :=
  let rest := m.filter (fun cell => cell.1 ≠ a)
  if v = Config.unwrittenCell then rest else DMem.insert a v rest

/-- The canonical form: addresses strictly rising, below 2^32 (R34, R50), and no entry equal to what an
unlisted cell reads as. -/
def DMem.wf (m : DMem) : Bool :=
  decide (m.Pairwise (fun x y => x.1 < y.1)) &&
    m.all (fun cell => decide (cell.1 < 2 ^ 32) && decide (cell.2 ≠ Config.unwrittenCell))

/-- The data address (R59): `bits32(A)`. -/
def State.dataAddr (s : State) : Nat := s.A.toNat

/-! ### The fetch -/

/-- `Fetch16` (R55): the word at a byte offset, `none` where two bytes do not stand there. -/
def fetch16 (image : List Byte) (p : Nat) : Option InstrWord :=
  match image.drop p with
  | hi :: lo :: _ => some (wordOfBytes hi lo)
  | _ => none

/-- A valid fetch offset (R56): even, not negative, with two bytes left. -/
def fetchable (pc : Word) (len : Nat) : Bool :=
  decide (pc.toInt % 2 = 0 ∧ 0 ≤ pc.toInt ∧ pc.toInt + 2 ≤ (len : Int))

/-- The word the fetch reads (R122), `none` where `pc` is not a valid fetch offset. -/
def State.fetchWord? (s : State) : Option InstrWord :=
  if fetchable s.pc s.IMEM.length then fetch16 s.IMEM s.pc.toNat else none

/-! ### The pc, the end of a run, faults, reset -/

/-- `pc <- target` (R12). -/
def State.setPc (s : State) (target : Word) : State := { s with pc := target }

/-- `pc <- pc + 2` (R124). -/
def State.advance (s : State) : State := s.setPc (s.pc + 2)

/-- The normal end of a run (R121): only `STATUS` changes. -/
def State.halt (s : State) : State := { s with STATUS := .halted }

/-- `raise` (R231): the step in progress changes nothing but `STATUS`, which records the cause, the offset
and the word if one was fetched (R230). -/
def State.raise (s : State) (cause : FaultCause) (fword : Option InstrWord) : State :=
  { s with STATUS := .faulted cause s.pc fword }

/-- The fault codes of R230. -/
def FaultCause.code : FaultCause → BitVec 2
  | .decodeError => 1
  | .fetchFault => 2
  | .reservedOperand => 3

/-- Reset with an image bound (R260, R263). Nothing of an earlier state survives, so none is an argument. -/
def State.boot (image : List Byte) : State := { State.reset with IMEM := image }

end Sys2Proof.Machine
end

