-- ==== Sys2Proof/Machine/Operands.lean ====
section
/-! DEFINITION. Operand access by role: `40_pipeline.md` R125, R126, and the write half that Copy and AluOp
share (R123, R160, R190). -/

namespace Sys2Proof.Machine

/-- The operand read `x[r]` (R125). -/
def State.readReg (s : State) : Reg → Word
  | .D => s.D
  | .C => s.C
  | .A => s.A
  | .M => s.DMEM.read s.dataAddr
  | .V => s.V
  | .T => s.SCR[s.BANK]
  | .S => s.S
  | .L => s.L

/-- The operand write `x[r] <- v` (R126) of a value already normalised. The spec's case 1 (`C`) is "never
reached": it writes nothing (R234), see `State.writeBack`. -/
def State.writeReg (s : State) (r : Reg) (v : Word) : State :=
  match r with
  | .D => { s with D := v }
  | .C => s
  | .A => { s with A := v }
  | .M => { s with DMEM := s.DMEM.write s.dataAddr v }
  | .V => { s with V := v }
  | .T => { s with SCR := s.SCR.set s.BANK v }
  | .S => { s with S := v }
  | .L => { s with L := v }

/-- The end of a Copy or an AluOp (R160, R190): `dst = C` raises `ReservedOperand` with the word that stands
at `pc`, and nothing is written (R234); any other `dst` is written and `pc` moves on. -/
def State.writeBack (s : State) (dst : Reg) (v : Word) : Host.Outcome State Fault Refusal :=
  if dst = .C then .next (s.raise .reservedOperand s.fetchWord?)
  else .next (s.writeReg dst v).advance

end Sys2Proof.Machine
end

