-- ==== Sys2Proof/Machine/Alu.lean ====
section
/-! DEFINITION. AluOp: the eight operations and their instructions (`45_alu.md` R190 to R198). Each operation
works on the two values exactly and is normalised once, at the end. -/

namespace Sys2Proof.Machine

/-- Add (R191). -/
def aluAdd (a b : Word) : Word := ofVal (a.toInt + b.toInt)

/-- Subtract (R192): `lhs - rhs`. -/
def aluSub (a b : Word) : Word := ofVal (a.toInt - b.toInt)

/-- Multiply (R193). -/
def aluMul (a b : Word) : Word := ofVal (a.toInt * b.toInt)

/-- Divide (R194): rounded toward zero (decision D17), 0 where the divisor is 0. -/
def aluDiv (a b : Word) : Word := if b = 0 then 0 else ofVal (a.toInt.tdiv b.toInt)

/-- Logical right shift of the 32-bit pattern (R195); the count is `bits32(rhs)`, and 32 or more gives 0
(decision D18). -/
def aluRmv (a b : Word) : Word := if 32 ≤ b.toNat then 0 else ofVal (a.toNat / 2 ^ b.toNat : Nat)

/-- Logical left shift of the 32-bit pattern (R196), the count as in R195. -/
def aluLmv (a b : Word) : Word := if 32 ≤ b.toNat then 0 else ofVal (a.toNat * 2 ^ b.toNat : Nat)

/-- Bitwise and of the patterns (R197). -/
def aluAnd (a b : Word) : Word := a &&& b

/-- Bitwise or of the patterns (R198). -/
def aluOr (a b : Word) : Word := a ||| b

/-- `addr` (R190, R191). -/
def execAddr (lhs rhs dst : Reg) (s : State) : Host.Outcome State Fault Refusal :=
  s.writeBack dst (aluAdd (s.readReg lhs) (s.readReg rhs))

/-- `subr` (R190, R192). -/
def execSubr (lhs rhs dst : Reg) (s : State) : Host.Outcome State Fault Refusal :=
  s.writeBack dst (aluSub (s.readReg lhs) (s.readReg rhs))

/-- `mulr` (R190, R193). -/
def execMulr (lhs rhs dst : Reg) (s : State) : Host.Outcome State Fault Refusal :=
  s.writeBack dst (aluMul (s.readReg lhs) (s.readReg rhs))

/-- `divr` (R190, R194). -/
def execDivr (lhs rhs dst : Reg) (s : State) : Host.Outcome State Fault Refusal :=
  s.writeBack dst (aluDiv (s.readReg lhs) (s.readReg rhs))

/-- `rmvr` (R190, R195). -/
def execRmvr (lhs rhs dst : Reg) (s : State) : Host.Outcome State Fault Refusal :=
  s.writeBack dst (aluRmv (s.readReg lhs) (s.readReg rhs))

/-- `lmvr` (R190, R196). -/
def execLmvr (lhs rhs dst : Reg) (s : State) : Host.Outcome State Fault Refusal :=
  s.writeBack dst (aluLmv (s.readReg lhs) (s.readReg rhs))

/-- `andr` (R190, R197). -/
def execAndr (lhs rhs dst : Reg) (s : State) : Host.Outcome State Fault Refusal :=
  s.writeBack dst (aluAnd (s.readReg lhs) (s.readReg rhs))

/-- `or_r` (R190, R198). -/
def execOrr (lhs rhs dst : Reg) (s : State) : Host.Outcome State Fault Refusal :=
  s.writeBack dst (aluOr (s.readReg lhs) (s.readReg rhs))

end Sys2Proof.Machine
end

