-- ==== Sys2Proof/Machine/Flags.lean ====
section
/-! DEFINITION. The comparison flag, the only status flag of the core (`10_state.md` R23): the condition of a
comparison code (`44_compare.md` R181) and the write of `C` (R180). -/

namespace Sys2Proof.Machine

/-- `cond(code, a, b)` (R181), on the two values as signed integers. -/
def condHolds (code : CmpCode) (a b : Int) : Bool :=
  match code with
  | .nv => false
  | .gt => decide (a > b)
  | .eq => decide (a = b)
  | .ge => decide (a ≥ b)
  | .lt => decide (a < b)
  | .ne => decide (a ≠ b)
  | .le => decide (a ≤ b)
  | .aw => true

/-- What Compare writes: 1 or 0 (R180). -/
def flagWord (r : Bool) : Word := if r then 1 else 0

/-- `C <- (if r then 1 else 0)` (R180). -/
def State.setFlag (s : State) (r : Bool) : State := { s with C := flagWord r }

end Sys2Proof.Machine
end

