-- ==== Sys2Proof/Machine/Compare.lean ====
section
/-! DEFINITION. Compare, the only writer of `C` (`44_compare.md` R180). -/

namespace Sys2Proof.Machine

/-- Compare (R180): a signed comparison. -/
def execComp (lhs : Reg) (code : CmpCode) (rhs : Reg) (s : State) : Host.Outcome State Fault Refusal :=
  .next (s.setFlag (condHolds code (s.readReg lhs).toInt (s.readReg rhs).toInt)).advance

end Sys2Proof.Machine
end

