-- ==== Sys2Proof/Machine/Copy.lean ====
section
/-! DEFINITION. Copy: register move, load, store, scratch move (`42_copy.md` R160, R161). -/

namespace Sys2Proof.Machine

/-- Copy (R160). -/
def execCopy (src dst : Reg) (s : State) : Host.Outcome State Fault Refusal :=
  s.writeBack dst (s.readReg src)

end Sys2Proof.Machine
end

