-- ==== Sys2Proof/Machine/Immediate.lean ====
section
/-! DEFINITION. LoadImmediate and ExtendImmediate over the one accumulate-and-finalise step, and the finite
form of the accumulator: `41_immediate.md` R140 to R145, `10_state.md` R32, R36. -/

namespace Sys2Proof.Machine

/-- `ImmStep(imm12, cont)` (R142). -/
def State.immStep (s : State) (imm12 : Chunk) (cont : Bool) : State :=
  let acc := s.PEND ++ [imm12]
  match cont with
  | true => { s with PEND := acc }.advance
  | false => { s with V := ofVal (sextBits acc), PEND := [] }.advance

/-- LoadImmediate (R140). -/
def execInpv (imm12 : Chunk) (cont : Bool) (s : State) : Host.Outcome State Fault Refusal :=
  .next (s.immStep imm12 cont)

/-- ExtendImmediate (R141). -/
def execExti (imm12 : Chunk) (cont : Bool) (s : State) : Host.Outcome State Fault Refusal :=
  .next (s.immStep imm12 cont)

/-! ### The finite form of the accumulator (R36) -/

/-- `PLEN`, the number of chunks saturated at 3, and `PLOW`, the low 32 bits of the string (R36). -/
structure FinPend where
  PLEN : Nat
  PLOW : Word
deriving DecidableEq, Repr

/-- What R36 keeps of a string of chunks. -/
def finPendOf (ks : List Chunk) : FinPend where
  PLEN := min ks.length 3
  PLOW := BitVec.ofNat 32 (chunksNat ks)

/-- Appending a chunk in the finite form (R36). -/
def FinPend.append (f : FinPend) (k : Chunk) : FinPend where
  PLEN := min (f.PLEN + 1) 3
  PLOW := f.PLOW <<< 12 ||| k.setWidth 32

/-- Finalising in the finite form (R36), for a form with at least one chunk. -/
def FinPend.value (f : FinPend) : Int :=
  if f.PLEN = 1 then sext 12 f.PLOW.toNat
  else if f.PLEN = 2 then sext 24 f.PLOW.toNat
  else sext 32 f.PLOW.toNat

end Sys2Proof.Machine
end

