-- ==== Sys2Proof/Machine/Jump.lean ====
section
/-! DEFINITION. Jump: conditional, absolute, register-indirect (`43_jump.md` R170). -/

namespace Sys2Proof.Machine

/-- Jump (R170): the target is stored unchecked; the next step's fetch checks it (R171). -/
def execJump (target flag : Reg) (s : State) : Host.Outcome State Fault Refusal :=
  .next (if s.readReg flag ≠ 0 then s.setPc (s.readReg target) else s.advance)

end Sys2Proof.Machine
end

