-- ==== Sys2Proof/Machine/SetBank.lean ====
section
/-! DEFINITION. SetBank (`46_setbank.md` R220): the new index applies from the next instruction on (R221). -/

namespace Sys2Proof.Machine

/-- SetBank (R220). -/
def execSett (index : BankIndex) (s : State) : Host.Outcome State Fault Refusal :=
  .next { s with BANK := index }.advance

end Sys2Proof.Machine
end

