-- ==== Sys2Proof/Machine/Dispatch.lean ====
section
/-! DEFINITION. The execute phase (`40_pipeline.md` R120): one arm per instruction, one call of its meaning. -/

namespace Sys2Proof.Machine

def exec (i : Instr) (s : State) : Host.Outcome State Fault Refusal :=
  match i with
  | .inpv imm12 cont => Sys2Proof.Machine.execInpv imm12 cont s
  | .copy src dst => Sys2Proof.Machine.execCopy src dst s
  | .jump target flag => Sys2Proof.Machine.execJump target flag s
  | .comp lhs code rhs => Sys2Proof.Machine.execComp lhs code rhs s
  | .addr lhs rhs dst => Sys2Proof.Machine.execAddr lhs rhs dst s
  | .subr lhs rhs dst => Sys2Proof.Machine.execSubr lhs rhs dst s
  | .mulr lhs rhs dst => Sys2Proof.Machine.execMulr lhs rhs dst s
  | .divr lhs rhs dst => Sys2Proof.Machine.execDivr lhs rhs dst s
  | .rmvr lhs rhs dst => Sys2Proof.Machine.execRmvr lhs rhs dst s
  | .lmvr lhs rhs dst => Sys2Proof.Machine.execLmvr lhs rhs dst s
  | .andr lhs rhs dst => Sys2Proof.Machine.execAndr lhs rhs dst s
  | .or_r lhs rhs dst => Sys2Proof.Machine.execOrr lhs rhs dst s
  | .exti imm12 cont => Sys2Proof.Machine.execExti imm12 cont s
  | .sett index => Sys2Proof.Machine.execSett index s

end Sys2Proof.Machine
end

