-- ==== Sys2Proof/Machine/Fetch.lean ====
section
/-! DEFINITION. The helpers of Step.lean: placing one instruction word where the next fetch reads it. -/

namespace Sys2Proof.Machine

/-- The image with a word's two bytes at offset `p`; a shorter image is filled up with zero bytes. -/
def placeWord (image : List Byte) (p : Nat) (w : InstrWord) : List Byte :=
  image.take p ++ List.replicate (p - image.length) 0 ++ bytesOfWord w ++ image.drop (p + Config.instrBytes)

/-- Where the next fetch can read an instruction: `pc` where that is a fetch offset some allowed image has
(R7, R56), else offset 0. -/
def State.fetchOffset (s : State) : Nat :=
  if fetchable s.pc Config.maxImageBytes then s.pc.toNat else 0

/-- Bind an image that holds the word where the next fetch reads it, and set what that fetch needs: `STATUS`
running, `pc` a valid fetch offset, the image within the bound of R7. -/
def State.placeNext (s : State) (w : InstrWord) : State :=
  { s with
    STATUS := .running
    pc := BitVec.ofNat 32 s.fetchOffset
    IMEM := (placeWord s.IMEM s.fetchOffset w).take Config.maxImageBytes }

end Sys2Proof.Machine
end

