-- ==== Sys2Proof/Machine/Step.lean ====
section
/-! DEFINITION. One step of the core, in the order of `40_pipeline.md` R120: the halt check, the fetch, the
decode, the execute phase, which ends with the pc update. -/

namespace Sys2Proof.Machine

/-- One step (R120). `Halted` and `Faulted` are absorbing (R33). `ReservedOperand` is raised by the meaning
of the Copy or AluOp itself, before it changes anything (R160, R190). -/
def step (s : State) : Host.Outcome State Fault Refusal :=
  match s.STATUS with
  | .halted => .next s
  | .faulted _ _ _ => .next s
  | .running =>
    if Config.maxImageBytes < s.IMEM.length then .fault .imageTooLong
    else if s.pc.toInt = (s.IMEM.length : Int) then .next s.halt
    else
      match s.fetchWord? with
      | none => .next (s.raise .fetchFault none)
      | some w =>
        match decodeWord w with
        | .error _ => .next (s.raise .decodeError (some w))
        | .ok i => exec i s

/-- The state with one instruction, numbered as spec/opcode_table.json numbers its bits, stored where the
next step fetches. -/
def State.withFetchWord (s : State) (nbits w : Nat) : State := s.placeNext (tableWord nbits w)

end Sys2Proof.Machine
end

