-- ==== Sys2Proof/Machine/Assembler.lean ====
section
/-! DEFINITION. The toolchain side that `00_scope.md` R4 puts in scope: the Encoder's immediate chaining
(`41_immediate.md` R146 to R148) and the reduced primitive text format (`30_encoding.md` R100 to R106). It is
no part of a step; an error here is an error of an assembler stage and never a fault of the core (R242). -/

namespace Sys2Proof.Machine

/-! ### Immediate chaining -/

/-- The closed range of a direct immediate (R146): the upper bound is 2046 (`90_conflicts.md` C5). -/
def fitsDirect (n : Int) : Bool := decide (-2048 ≤ n ∧ n ≤ 2046)

/-- `t(n)` of R147: the smallest width `t >= 1` with `-2^(t-1) <= n <= 2^(t-1) - 1`. -/
def minWidth (n : Int) : Nat :=
  let m : Nat := if 0 ≤ n then n.toNat else (-n - 1).toNat
  if m = 0 then 1 else m.log2 + 2

/-- The number of chunks `W / 12` of R147, `W` being the smallest multiple of 12 that is at least
`t(n) + 1` (decision D27). -/
def chunkCount (n : Int) : Nat := (minWidth n + 1 + 11) / 12

/-- The lowest `12 * count` bits of `b` cut into `count` chunks, most significant first (R147). -/
def cutChunks : Nat → Nat → List Chunk
  | 0, _ => []
  | count + 1, b => BitVec.ofNat 12 (b / 2 ^ (12 * count)) :: cutChunks count b

/-- The chunks of an extended immediate (R147): of `n mod 2^W`. -/
def literalChunks (n : Int) : List Chunk :=
  cutChunks (chunkCount n) (n % 2 ^ (12 * chunkCount n)).toNat

/-- The words after the first of a chain (R143, R147): only the last has continuation flag 0. -/
def chainTail : List Chunk → List Instr
  | [] => []
  | [k] => [.exti k false]
  | k :: ks => .exti k true :: chainTail ks

/-- A chain of two chunks or more (R143, R147); of a single chunk, the direct form. -/
def chain : List Chunk → List Instr
  | [] => []
  | [k] => [.inpv k false]
  | k :: ks => .inpv k true :: chainTail ks

/-- The instructions of `inpv <literal>` (R101, R146, R147). A resolved label is a literal, its absolute byte
offset (R148). -/
def literalInstrs (n : Int) : List Instr :=
  if fitsDirect n then [.inpv (BitVec.ofInt 12 n) false] else chain (literalChunks n)

/-! ### The reduced primitive text format, one line as its tokens -/

/-- The format errors of an assembler line (R100, R242). -/
inductive AsmError where
  | unknownMnemonic
  | wrongArity
  | badOperand
deriving DecidableEq, Repr

/-- A register operand: the sigil `$` and the name (R100). -/
def regOfToken : String → Option Reg
  | "$D" => some .D
  | "$C" => some .C
  | "$A" => some .A
  | "$M" => some .M
  | "$V" => some .V
  | "$T" => some .T
  | "$S" => some .S
  | "$L" => some .L
  | _ => none

/-- A comparison code as text (R90, R104). -/
def cmpOfToken : String → Option CmpCode
  | "nv" => some .nv
  | ">" => some .gt
  | "==" => some .eq
  | ">=" => some .ge
  | "<" => some .lt
  | "!=" => some .ne
  | "<=" => some .le
  | "aw" => some .aw
  | _ => none

/-- The AluOp of a mnemonic (R91, R105). -/
def aluOfMnemonic : String → Option (Reg → Reg → Reg → Instr)
  | "addr" => some .addr
  | "subr" => some .subr
  | "mulr" => some .mulr
  | "divr" => some .divr
  | "rmvr" => some .rmvr
  | "lmvr" => some .lmvr
  | "andr" => some .andr
  | "or_r" => some .or_r
  | _ => none

/-- A decimal digit. -/
def digitOfChar (c : Char) : Option Nat :=
  if 48 ≤ c.toNat ∧ c.toNat ≤ 57 then some (c.toNat - 48) else none

/-- Decimal digits read from the left onto an accumulator. -/
def digitsOnto : Nat → List Char → Option Nat
  | acc, [] => some acc
  | acc, c :: cs =>
    match digitOfChar c with
    | some d => digitsOnto (acc * 10 + d) cs
    | none => none

/-- An unsigned decimal literal of at least one digit. -/
def decimalNat : List Char → Option Nat
  | [] => none
  | c :: cs => digitsOnto 0 (c :: cs)

/-- A signed decimal literal (R101): an optional `-`, then digits. -/
def decimalInt (token : String) : Option Int :=
  match token.toList with
  | '-' :: cs => (decimalNat cs).map (fun n => -(n : Int))
  | cs => (decimalNat cs).map (fun n => (n : Int))

/-- A bank index literal, 0 to 7 (R106). -/
def bankOfToken (token : String) : Option BankIndex :=
  match decimalNat token.toList with
  | some n => if h : n < 8 then some ⟨n, h⟩ else none
  | none => none

/-- `copy $src $dst` and `jump $target $flag` (R102, R103). -/
def asmTwoRegs (make : Reg → Reg → Instr) : List String → Except AsmError (List Instr)
  | [t1, t2] =>
    match regOfToken t1, regOfToken t2 with
    | some r1, some r2 => .ok [make r1 r2]
    | _, _ => .error .badOperand
  | _ => .error .wrongArity

/-- `comp $lhs code $rhs` (R104). -/
def asmComp : List String → Except AsmError (List Instr)
  | [t1, t2, t3] =>
    match regOfToken t1, cmpOfToken t2, regOfToken t3 with
    | some lhs, some code, some rhs => .ok [.comp lhs code rhs]
    | _, _, _ => .error .badOperand
  | _ => .error .wrongArity

/-- `<op>r $lhs $rhs $dst` (R105). -/
def asmAlu (make : Reg → Reg → Reg → Instr) : List String → Except AsmError (List Instr)
  | [t1, t2, t3] =>
    match regOfToken t1, regOfToken t2, regOfToken t3 with
    | some lhs, some rhs, some dst => .ok [make lhs rhs dst]
    | _, _, _ => .error .badOperand
  | _ => .error .wrongArity

/-- `inpv <literal>` (R101). -/
def asmInpv : List String → Except AsmError (List Instr)
  | [t] =>
    match decimalInt t with
    | some n => .ok (literalInstrs n)
    | none => .error .badOperand
  | _ => .error .wrongArity

/-- `sett <index>` (R106). -/
def asmSett : List String → Except AsmError (List Instr)
  | [t] =>
    match bankOfToken t with
    | some k => .ok [.sett k]
    | none => .error .badOperand
  | _ => .error .wrongArity

/-- The instructions of one line of the reduced primitive text format, given as its tokens (R100). -/
def assembleLine : List String → Except AsmError (List Instr)
  | [] => .ok []
  | mnemonic :: args =>
    if mnemonic = "inpv" then asmInpv args
    else if mnemonic = "copy" then asmTwoRegs .copy args
    else if mnemonic = "jump" then asmTwoRegs .jump args
    else if mnemonic = "comp" then asmComp args
    else if mnemonic = "sett" then asmSett args
    else
      match aluOfMnemonic mnemonic with
      | some make => asmAlu make args
      | none => .error .unknownMnemonic

/-- The instructions of a program, line after line; the first format error aborts the stage with no partial
output (R242). -/
def assemble : List (List String) → Except AsmError (List Instr)
  | [] => .ok []
  | line :: lines =>
    match assembleLine line with
    | .error e => .error e
    | .ok is =>
      match assemble lines with
      | .error e => .error e
      | .ok js => .ok (is ++ js)

/-- The tokens of a line, separated by white space (R100); `acc` is the token being read, last character
first. -/
def tokensOnto : List Char → List Char → List String
  | [], [] => []
  | acc, [] => [String.ofList acc.reverse]
  | acc, c :: cs =>
    if c.isWhitespace then
      match acc with
      | [] => tokensOnto [] cs
      | d :: ds => String.ofList (d :: ds).reverse :: tokensOnto [] cs
    else tokensOnto (c :: acc) cs

/-- The tokens of a line of text (R100). -/
def tokensOf (line : String) : List String := tokensOnto [] line.toList

/-- The instructions of a program text given as its lines (R100: one instruction per line). -/
def assembleText (lines : List String) : Except AsmError (List Instr) := assemble (lines.map tokensOf)

end Sys2Proof.Machine
end

