-- ==== Sys2Proof/Machine/Ports.lean ====
section
/-! DEFINITION. What the host and a memory see of the core: the abstract port list of
`70_reset_and_hazards.md` R270 (decision D25) and the data accesses of one instruction (`20_memory.md` R61).
These are views of the state; nothing the machine does depends on them. -/

namespace Sys2Proof.Machine

/-- The ports of R270 that are functions of the state between two steps. The fault ports, "valid while
`faulted`", are absent otherwise; the data port is `dataAccesses`. -/
structure Ports where
  iaddr : Option Word
  idata : Option InstrWord
  ilen : Word
  halted : Bool
  faulted : Bool
  fcause : Option (BitVec 2)
  fpc : Option Word
deriving DecidableEq, Repr

/-- The ports in a state (R270). A fetch is made only while running and at a valid fetch offset (R120, R122). -/
def State.ports (s : State) : Ports where
  iaddr := if s.STATUS = .running ∧ s.fetchWord?.isSome then some s.pc else none
  idata := if s.STATUS = .running then s.fetchWord? else none
  ilen := BitVec.ofNat 32 s.IMEM.length
  halted := decide (s.STATUS = .halted)
  faulted :=
    match s.STATUS with
    | .faulted _ _ _ => true
    | _ => false
  fcause :=
    match s.STATUS with
    | .faulted cause _ _ => some cause.code
    | _ => none
  fpc :=
    match s.STATUS with
    | .faulted _ fpc _ => some fpc
    | _ => none

/-- One data access on the port of R270: `daddr`, `dwrite`, and the pattern moved (`drdata` or `dwdata`). -/
structure Access where
  daddr : Nat
  dwrite : Bool
  data : Word
deriving DecidableEq, Repr

/-- The data accesses of one instruction, in order (R61, R127): a read for each read field that names `M`,
then a write where `dst` is `M`; none where the instruction is reserved (R95: nothing is read or written). -/
def dataAccesses (i : Instr) (s : State) : List Access :=
  if i.dst? = some .C then []
  else
    (i.reads.filter (fun r => decide (r = .M))).map (fun _ => ⟨s.dataAddr, false, s.DMEM.read s.dataAddr⟩) ++
      (match i.dst?, exec i s with
       | some .M, .next t => [⟨s.dataAddr, true, t.DMEM.read s.dataAddr⟩]
       | _, _ => [])

end Sys2Proof.Machine
end

