-- ==== Sys2Proof/WellFormed.lean ====
section
/-! DEFINITION. Well-formedness of an instruction and of a program image. An ill-formed instruction still
decodes, and executing it raises `ReservedOperand` (`30_encoding.md` R95). Field widths need no check: the
types of Syntax.lean hold them. -/

namespace Sys2Proof

/-- The one reserved operand encoding: `dst = C` in a Copy or an AluOp word (R95). -/
def Instr.wf (i : Instr) : Bool := decide (i.dst? ≠ some .C)

/-- What R7 requires of a program image: an even length of at most 2^31 - 2 bytes. -/
def imageOk (image : List Byte) : Bool :=
  decide (image.length % Config.instrBytes = 0 ∧ image.length ≤ Config.maxImageBytes)

end Sys2Proof
end

