-- ==== Sys2Proof/Safety.lean ====
section
/-! DEFINITION. What counts as a safe run, and the invariant every step keeps. -/

namespace Sys2Proof.Machine

/-- A state whose run has ended, in either way (R33, R128). -/
def State.stopped (s : State) : Bool := decide (s.STATUS ≠ .running)

/-- The only states that are results (R128, R231: "a model must treat a faulted state as never final"). -/
def State.isResult (s : State) : Bool := decide (s.STATUS = .halted)

/-- The image a run of the spec may have (R7). -/
def State.legalImage (s : State) : Bool := imageOk s.IMEM

/-- What `STATUS` says is so: a halted core stands at the end of its image (R121); a faulted one recorded
the offset it stands at, and the cause it recorded holds there (R230 to R234). -/
def State.statusTrue (s : State) : Prop :=
  match s.STATUS with
  | .running => True
  | .halted => s.pc.toInt = (s.IMEM.length : Int)
  | .faulted .fetchFault fpc fword =>
    fpc = s.pc ∧ fword = none ∧ s.pc.toInt ≠ (s.IMEM.length : Int) ∧ fetchable s.pc s.IMEM.length = false
  | .faulted .decodeError fpc fword =>
    fpc = s.pc ∧ ∃ w, fword = some w ∧ s.fetchWord? = some w ∧ w.extractLsb 15 13 = (7 : BitVec 3)
  | .faulted .reservedOperand fpc fword =>
    fpc = s.pc ∧ ∃ w i, fword = some w ∧ s.fetchWord? = some w ∧ decodeWord w = .ok i ∧ i.wf = false

/-- The invariant: memory in canonical form, the flag register a flag (R23: "after reset and after any
Compare it holds 0 or 1", and only Compare writes it), and a truthful status. -/
def State.Inv (s : State) : Prop := s.DMEM.wf = true ∧ (s.C = 0 ∨ s.C = 1) ∧ s.statusTrue

end Sys2Proof.Machine
end

