-- ==== Sys2Proof/Certificates/Slice0/Obligations.lean ====
section
/-! DEFINITION. The statements for the provers. Each docstring names the rule or the section of spec/ it
formalises, and the decision D<n> (the spec's own choice, `92_eei_decisions.md`) or log entry it rests on. -/

/-! ### Words the statements share -/

namespace Sys2Proof.Stmt

open Sys2Proof.Machine

/-- The core is running on an image within the bound of R7 and `w` is the word at its `pc`, which is a valid
fetch offset (R55, R56). -/
def Fetches (s : State) (w : InstrWord) : Prop :=
  s.STATUS = .running ∧ s.IMEM.length ≤ 2147483646 ∧
    ∃ (p : Nat) (hi lo : Byte), s.pc.toInt = (p : Int) ∧ p % 2 = 0 ∧ s.IMEM[p]? = some hi ∧
      s.IMEM[p + 1]? = some lo ∧ w.toNat = hi.toNat * 256 + lo.toNat

/-- An AluOp whose result is `f` of its two operands, read as integers (R190): with any destination but `C` it
completes, the result is written by role, `pc` moves on by 2, and that is all. -/
def AluResult (make : Reg → Reg → Reg → Instr) (f : Word → Word → Int) : Prop :=
  ∀ (lhs rhs dst : Reg) (s : State), dst ≠ .C →
    ∃ v : Word, v.toInt = f (s.readReg lhs) (s.readReg rhs) ∧
      exec (make lhs rhs dst) s = .next ((s.writeReg dst v).setPc (s.pc + 2))

/-- The unsigned number of a string of chunks, first chunk most significant. -/
def chunkNumber (ks : List Chunk) : Nat := Nat.ofDigits 4096 ((ks.map BitVec.toNat).reverse)

/-- The integer a string of chunks denotes in two's complement: `sext_(12n)` of R11. -/
def chunkValue (ks : List Chunk) : Int :=
  if chunkNumber ks < 2 ^ (12 * ks.length - 1) then (chunkNumber ks : Int)
  else (chunkNumber ks : Int) - 2 ^ (12 * ks.length)

/-- Instructions executed one after the other, stopping at the first that gives no next state. -/
def runInstrs : List Instr → State → Host.Outcome State Fault Refusal
  | [], s => .next s
  | i :: is, s =>
    match exec i s with
    | .next t => runInstrs is t
    | .fault r => .fault r
    | .refused r => .refused r

/-- Where R124 sends the pc. -/
def nextPc (i : Instr) (s : State) : Word :=
  match i with
  | .jump target flag => if s.readReg flag ≠ 0 then s.readReg target else s.pc + 2
  | _ => s.pc + 2

/-- The register of a numeric code, from the table of R21. -/
def regAt (n : Nat) : Reg := [Reg.D, .C, .A, .M, .V, .T, .S, .L].getD n .D

/-- The comparison of a numeric code, from the table of R90. -/
def cmpAt (n : Nat) : CmpCode := [CmpCode.nv, .gt, .eq, .ge, .lt, .ne, .le, .aw].getD n .nv

/-- The AluOp of a numeric code, from the table of R91. -/
def aluAt (n : Nat) : Reg → Reg → Reg → Instr :=
  [Instr.addr, .subr, .mulr, .divr, .rmvr, .lmvr, .andr, .or_r].getD n .addr

/-- The field `w[hi:lo]` of a word as a number (R8). -/
def fld (w hi lo : Nat) : Nat := w / 2 ^ lo % 2 ^ (hi - lo + 1)

/-- The decode function of R93, on numbers. -/
def tableDecode (w : Nat) : Except DecodeReject Instr :=
  if fld w 15 13 = 0 then .ok (.inpv (BitVec.ofNat 12 (fld w 12 1)) (fld w 0 0 = 1))
  else if fld w 15 13 = 1 then .ok (.copy (regAt (fld w 12 10)) (regAt (fld w 9 7)))
  else if fld w 15 13 = 2 then .ok (.jump (regAt (fld w 12 10)) (regAt (fld w 9 7)))
  else if fld w 15 13 = 3 then
    .ok (.comp (regAt (fld w 12 10)) (cmpAt (fld w 9 7)) (regAt (fld w 6 4)))
  else if fld w 15 13 = 4 then
    .ok (aluAt (fld w 12 10) (regAt (fld w 9 7)) (regAt (fld w 6 4)) (regAt (fld w 3 1)))
  else if fld w 15 13 = 5 then .ok (.exti (BitVec.ofNat 12 (fld w 12 1)) (fld w 0 0 = 1))
  else if fld w 15 13 = 6 then .ok (.sett (Fin.ofNat 8 (fld w 12 10)))
  else .error .illegalOpcode

/-- `n` fits in `12 * c` bits with the sign guard bit of R147 to spare. -/
def fitsChunks (n : Int) (c : Nat) : Prop := -(2 ^ (12 * c - 2)) ≤ n ∧ n < 2 ^ (12 * c - 2)

end Sys2Proof.Stmt

open Sys2Proof Sys2Proof.Machine Sys2Proof.Stmt

/-! ### The step -/

/-- `40_pipeline.md` section 1 (R120): a running core whose word decodes executes that instruction, and the
step adds nothing around it. -/
def Obligations.StepRunsTheDecodedInstruction : Prop :=
  ∀ (s : State) (w : InstrWord) (i : Instr), Fetches s w → decodeWord w = .ok i → step s = exec i s

/-- R121, on an image within the bound of R7: at `pc = LEN` the step sets `STATUS` and nothing else; with
`LEN = 0` the reset state halts at once; and no step of a running core halts it anywhere else. -/
def Obligations.HaltExactlyAtTheEndOfTheImage : Prop :=
  (∀ s : State, s.STATUS = .running → s.IMEM.length ≤ 2147483646 → s.pc.toInt = (s.IMEM.length : Int) →
      step s = .next { s with STATUS := .halted }) ∧
    step State.reset = .next { State.reset with STATUS := .halted } ∧
    ∀ s t : State, s.STATUS = .running → step s = .next t → t.STATUS = .halted →
      s.pc.toInt = (s.IMEM.length : Int)

/-- `60_exceptions.md` section 1 (R233), the spec's own choice D12: `FetchFault` is the next state exactly when
`pc` is neither the image length nor a valid fetch offset, and it changes nothing but `STATUS`. -/
def Obligations.FetchFaultExactlyAtInvalidOffsets : Prop :=
  ∀ s : State, s.STATUS = .running → s.IMEM.length ≤ 2147483646 →
    (step s = .next { s with STATUS := .faulted .fetchFault s.pc none } ↔
      s.pc.toInt ≠ (s.IMEM.length : Int) ∧
        ¬ (s.pc.toInt % 2 = 0 ∧ 0 ≤ s.pc.toInt ∧ s.pc.toInt + 2 ≤ (s.IMEM.length : Int)))

/-- `60_exceptions.md` section 1 (R232); that the unrecognised opcode is 7 is the spec's own choice D3: a
fetched word raises `DecodeError` exactly when its top three bits are 7, whatever the other thirteen. -/
def Obligations.DecodeErrorExactlyOnOpcodeSeven : Prop :=
  ∀ (s : State) (w : InstrWord), Fetches s w →
    (step s = .next { s with STATUS := .faulted .decodeError s.pc (some w) } ↔ w.toNat / 8192 = 7)

/-- `60_exceptions.md` section 1 (R234), the spec's own choice D14: a Copy or AluOp word with `dst = C` raises
`ReservedOperand` with the offset and the word fetched, and nothing else changes; outside a step the word
recorded is the one standing at `pc` (log entry 6). An instruction whose `dst` is not `C` raises nothing. -/
def Obligations.ReservedDestinationFaults : Prop :=
  (∀ (s : State) (w : InstrWord) (i : Instr), Fetches s w → decodeWord w = .ok i → i.dst? = some .C →
      step s = .next { s with STATUS := .faulted .reservedOperand s.pc (some w) }) ∧
    (∀ (s : State) (i : Instr), i.dst? = some .C →
      exec i s = .next { s with STATUS := .faulted .reservedOperand s.pc s.fetchWord? }) ∧
    ∀ (s : State) (i : Instr), i.dst? ≠ some .C → ∃ t, exec i s = .next t ∧ t.STATUS = s.STATUS

/-- `10_state.md` section 7 (R33), the spec's own choice D21: a halted or faulted core never changes again. -/
def Obligations.StoppedStatesAbsorb : Prop :=
  ∀ s : State, s.STATUS ≠ .running → step s = .next s

/-- `40_pipeline.md` section 1 (R120) and `00_scope.md` section 4 (R7): on every image within the bound of R7 a
step answers a next state. The bound is the spec's own choice D28; that a longer image stops the model by name
is the model's choice, log entry 4. -/
def Obligations.StepAnswersOnEveryAllowedImage : Prop :=
  (∀ s : State, s.IMEM.length ≤ 2147483646 → ∃ t, step s = .next t) ∧
    ∀ s : State, s.STATUS = .running → 2147483646 < s.IMEM.length → step s = .fault .imageTooLong

/-- `60_exceptions.md` sections 1 and 2 (R231, R237), the spec's own choice D21: whatever the fault, the state
left is the state the step began in, but for `STATUS`, which records the offset `pc` stands at. -/
def Obligations.FaultsArePrecise : Prop :=
  ∀ (s t : State) (cause : FaultCause) (fpc : Word) (fword : Option InstrWord), s.STATUS = .running →
    step s = .next t → t.STATUS = .faulted cause fpc fword →
      fpc = s.pc ∧ t = { s with STATUS := .faulted cause s.pc fword }

/-- R124. Of every instruction that executes (its `dst` is not the reserved one): it completes; the pc it
leaves is its own plus 2, or the target of a taken Jump; and moving the pc it starts from changes nothing else
it leaves, so that it reads the pc into no register and no cell. -/
def Obligations.PcUpdateAndPcIsNotReadAsData : Prop :=
  ∀ (i : Instr) (s : State) (p : Word), i.dst? ≠ some .C →
    ∃ t, exec i s = .next t ∧ t.pc = nextPc i s ∧
      exec i { s with pc := p } = .next { t with pc := nextPc i { s with pc := p } }

/-- `10_state.md` section 5 (R31): a step of a running core that fetches any instruction but a taken Jump (and
not a reserved one, which faults) leaves the integer `pc` it began at plus 2, with no wrap: even, at most `LEN`,
so at most 2^31 - 2; and that is what the advance shared by the meanings does there. It rests on the bound of
R7, the spec's own choice D28. -/
def Obligations.SequentialAdvanceNeverWraps : Prop :=
  ∀ (s : State) (w : InstrWord) (i : Instr), Fetches s w → decodeWord w = .ok i →
    s.advance.pc.toInt = s.pc.toInt + 2 ∧
    (i.dst? ≠ some .C → (∀ target flag, i = .jump target flag → s.readReg flag = 0) →
      ∃ t, step s = .next t ∧ t.pc.toInt = s.pc.toInt + 2 ∧ t.pc.toInt % 2 = 0 ∧
        t.pc.toInt ≤ (s.IMEM.length : Int) ∧ t.pc.toInt ≤ 2147483646)

/-! ### Operands and values -/

/-- `40_pipeline.md` section 2 (R125) with `20_memory.md` section 3 (R59); that Jump's fields are read so too
and that a negative `A` names the cell `A + 2^32` are the spec's own choices D20, D10. -/
def Obligations.OperandReadByRole : Prop :=
  ∀ s : State, s.readReg .D = s.D ∧ s.readReg .C = s.C ∧ s.readReg .A = s.A ∧
    s.readReg .M = s.DMEM.read s.A.toNat ∧ s.readReg .V = s.V ∧ s.readReg .T = s.SCR[s.BANK] ∧
    s.readReg .S = s.S ∧ s.readReg .L = s.L

/-- R126. An operand write of the integer `v` stores `wrap32(v)` in exactly the location the name and the
state it starts in select; case 1 is never reached (a `dst` of `C` faults and writes nothing, which
ReservedDestinationFaults states as the spec's own choice D14); only Copy and AluOp write so, and
the other instructions write what the rule names, directly. -/
def Obligations.OperandWriteByRole : Prop :=
  (∀ v : Int, (ofVal v).toInt = wrap32 v) ∧
  (∀ (s : State) (v : Int),
    s.writeReg .D (ofVal v) = { s with D := ofVal v } ∧
    s.writeReg .A (ofVal v) = { s with A := ofVal v } ∧
    s.writeReg .M (ofVal v) = { s with DMEM := s.DMEM.write s.A.toNat (ofVal v) } ∧
    s.writeReg .V (ofVal v) = { s with V := ofVal v } ∧
    s.writeReg .T (ofVal v) = { s with SCR := s.SCR.set s.BANK (ofVal v) } ∧
    s.writeReg .S (ofVal v) = { s with S := ofVal v } ∧
    s.writeReg .L (ofVal v) = { s with L := ofVal v }) ∧
  (∀ (s t : State) (i : Instr) (dst : Reg), i.dst? = some dst → exec i s = .next t →
    (dst = .C ∧ t = { s with STATUS := t.STATUS }) ∨
      (dst ≠ .C ∧ ∃ v : Int, t = { s.writeReg dst (ofVal v) with pc := s.pc + 2 })) ∧
  (∀ (s t : State) (k : Chunk) (c : Bool), exec (.inpv k c) s = .next t ∨ exec (.exti k c) s = .next t →
    t = { s with V := t.V, PEND := t.PEND, pc := s.pc + 2 }) ∧
  (∀ (s t : State) (lhs rhs : Reg) (code : CmpCode), exec (.comp lhs code rhs) s = .next t →
    t = { s with C := t.C, pc := s.pc + 2 }) ∧
  (∀ (s t : State) (k : BankIndex), exec (.sett k) s = .next t → t = { s with BANK := t.BANK, pc := s.pc + 2 }) ∧
  (∀ (s t : State) (target flag : Reg), exec (.jump target flag) s = .next t → t = { s with pc := t.pc })

/-- R10. `wrap32` in its closed form is reached by adding or subtracting 2^32 some number of times, lies in
the range of a value, is the value itself where there is nothing to do, and keeps the 32-bit pattern; a word
made from an integer reads back as its normalisation. -/
def Obligations.NormalisationIsWrap32 : Prop :=
  ∀ x : Int, wrap32 x = ((x + 2147483648) % 4294967296) - 2147483648 ∧
    (∃ k : Int, wrap32 x = x + k * 4294967296) ∧
    -2147483648 ≤ wrap32 x ∧ wrap32 x ≤ 2147483647 ∧
    (-2147483648 ≤ x → x ≤ 2147483647 → wrap32 x = x) ∧
    (wrap32 x) % 4294967296 = x % 4294967296 ∧
    (ofVal x).toInt = wrap32 x ∧ ((ofVal x).toNat : Int) = x % 4294967296

/-! ### AluOp -/

/-- `45_alu.md` section 2 (R191, R192, R193): add, subtract and multiply are exact modulo 2^32, on every
operand form, and complete with every destination but `C`. -/
def Obligations.AddSubtractMultiplyWrap : Prop :=
  AluResult .addr (fun a b => wrap32 (a.toInt + b.toInt)) ∧
    AluResult .subr (fun a b => wrap32 (a.toInt - b.toInt)) ∧
    AluResult .mulr (fun a b => wrap32 (a.toInt * b.toInt))

/-- `45_alu.md` section 2 (R194): the quotient of the magnitudes with the product of the signs, so rounded
toward zero (the spec's own choice D17), wrapped; 0 where the divisor is 0. -/
def Obligations.DivideTruncatesTowardZero : Prop :=
  AluResult .divr (fun a b =>
    if b.toInt = 0 then 0
    else wrap32 (a.toInt.sign * b.toInt.sign * ((a.toInt.natAbs / b.toInt.natAbs : Nat) : Int)))

/-- R235: with a divisor of 0, `divr` completes normally: 0 is written to `dst`, `pc` advances by 2, and no
status bit records it. The register written to cannot be `C` (see ReservedDestinationFaults). -/
def Obligations.DivisionByZeroYieldsZeroAndGoesOn : Prop :=
  ∀ (lhs rhs dst : Reg) (s : State), dst ≠ .C → s.readReg rhs = 0 →
    exec (.divr lhs rhs dst) s = .next { s.writeReg dst 0 with pc := s.pc + 2 } ∧
      ({ s.writeReg dst 0 with pc := s.pc + 2 } : State).STATUS = s.STATUS ∧
      ({ s.writeReg dst 0 with pc := s.pc + 2 } : State).C = s.C

/-- `45_alu.md` section 2 (R195, R196): both shifts act on the unsigned 32-bit pattern by the unsigned count,
of any size, in the spec's own formula; and 32 or more gives 0. The reading is the spec's own choice D18. -/
def Obligations.ShiftsActOnThePatternByTheFullCount : Prop :=
  AluResult .rmvr (fun a b => wrap32 ((a.toNat / 2 ^ b.toNat : Nat) : Int)) ∧
    AluResult .lmvr (fun a b => wrap32 ((a.toNat * 2 ^ b.toNat : Nat) : Int)) ∧
    (∀ a b : Word, 32 ≤ b.toNat → wrap32 ((a.toNat / 2 ^ b.toNat : Nat) : Int) = 0) ∧
    (∀ a b : Word, 32 ≤ b.toNat → wrap32 ((a.toNat * 2 ^ b.toNat : Nat) : Int) = 0)

/-- `45_alu.md` section 2 (R197, R198): the bit-by-bit conjunction and disjunction of the two patterns, read
back as a value with `sext_32`. -/
def Obligations.AndOrActBitByBit : Prop :=
  AluResult .andr (fun a b => sext 32 (a.toNat &&& b.toNat)) ∧
    AluResult .or_r (fun a b => sext 32 (a.toNat ||| b.toNat)) ∧
    (∀ a b : Word, ∀ n < 32, (aluAnd a b).getLsbD n = (a.getLsbD n && b.getLsbD n)) ∧
    ∀ a b : Word, ∀ n < 32, (aluOr a b).getLsbD n = (a.getLsbD n || b.getLsbD n)

/-! ### Copy, Jump, Compare, SetBank, the immediates -/

/-- `42_copy.md` (R160): Copy moves the value read by role to the destination by role, for every form. The
destination `C` is in ReservedDestinationFaults. -/
def Obligations.CopyMovesTheOperand : Prop :=
  ∀ (src dst : Reg) (s : State), dst ≠ .C →
    exec (.copy src dst) s = .next { s.writeReg dst (s.readReg src) with pc := s.pc + 2 }

/-- `42_copy.md` (R161) and `20_memory.md` section 3 (R57, R58): a Copy to `M` stores to the cell `A` selects
and to no other, and changes nothing else but `pc`; a Copy from `M` right after it loads the value stored. -/
def Obligations.StoreThenLoadReturnsTheValue : Prop :=
  ∀ (src : Reg) (s : State), ∃ t, exec (.copy src .M) s = .next t ∧
    t = { s with DMEM := t.DMEM, pc := s.pc + 2 } ∧
    t.DMEM.read s.dataAddr = s.readReg src ∧
    (∀ a, a ≠ s.dataAddr → t.DMEM.read a = s.DMEM.read a) ∧
    ∀ dst : Reg, dst ≠ .C →
      exec (.copy .M dst) t = .next { t.writeReg dst (s.readReg src) with pc := s.pc + 2 + 2 }

/-- `43_jump.md` (R170): any nonzero flag value takes the jump, to the target value unchanged; 0 falls through;
nothing else changes. -/
def Obligations.JumpIsTakenOnAnyNonzeroFlag : Prop :=
  ∀ (target flag : Reg) (s : State),
    ((s.readReg flag).toInt ≠ 0 → exec (.jump target flag) s = .next { s with pc := s.readReg target }) ∧
      ((s.readReg flag).toInt = 0 → exec (.jump target flag) s = .next { s with pc := s.pc + 2 })

/-- `44_compare.md` (R180, R181): Compare writes 1 or 0 to `C` and nothing else but `pc`, by the mask of its
code on the signed order of its operands; a code and its bitwise complement give opposite flags. The numbering
of the codes and the signed order are the spec's own choices D6, D19. -/
def Obligations.CompareWritesTheMaskedCondition : Prop :=
  (∀ (lhs rhs : Reg) (code : CmpCode) (s : State),
    exec (.comp lhs code rhs) s = .next { s with
      C := if (code.code.getLsbD 0 = true ∧ (s.readReg lhs).toInt > (s.readReg rhs).toInt) ∨
              (code.code.getLsbD 1 = true ∧ (s.readReg lhs).toInt = (s.readReg rhs).toInt) ∨
              (code.code.getLsbD 2 = true ∧ (s.readReg lhs).toInt < (s.readReg rhs).toInt) then 1 else 0,
      pc := s.pc + 2 }) ∧
    ∀ (lhs rhs : Reg) (code code' : CmpCode) (s t t' : State), code'.code = ~~~ code.code →
      exec (.comp lhs code rhs) s = .next t → exec (.comp lhs code' rhs) s = .next t' → t.C + t'.C = 1

/-- `46_setbank.md` (R220, R221): SetBank sets `BANK`, keeps every entry, and the next operand access of `T` is
to the entry it names. -/
def Obligations.SetBankSelectsTheEntry : Prop :=
  ∀ (k : BankIndex) (s : State), ∃ t, exec (.sett k) s = .next t ∧ t = { s with BANK := k, pc := s.pc + 2 } ∧
    t.readReg .T = s.SCR[k] ∧ ∀ v : Word, (t.writeReg .T v).SCR = s.SCR.set k v

/-- `41_immediate.md` sections 1 and 2 (R140, R141, R142): both immediate instructions append their chunk on
the right; with continuation flag 1 no register is written, with 0 the whole string is read as one two's
complement number into `V` and the accumulator is emptied. One behaviour for both is the spec's own choice D15. -/
def Obligations.ImmediateStepAccumulatesOrFinalises : Prop :=
  ∀ (k : Chunk) (s : State),
    exec (.inpv k true) s = .next { s with PEND := s.PEND ++ [k], pc := s.pc + 2 } ∧
    exec (.exti k true) s = .next { s with PEND := s.PEND ++ [k], pc := s.pc + 2 } ∧
    ∃ v : Word, v.toInt = wrap32 (chunkValue (s.PEND ++ [k])) ∧ (s.PEND = [] → v.toInt = k.toInt) ∧
      exec (.inpv k false) s = .next { s with V := v, PEND := [], pc := s.pc + 2 } ∧
      exec (.exti k false) s = .next { s with V := v, PEND := [], pc := s.pc + 2 }

/-- `41_immediate.md` section 3 (R143): a chain of two chunks or more, from an empty accumulator, loads the
normalised value of its whole string, moves `pc` by 2 a word and changes nothing else; after any proper part
of it no register has changed. -/
def Obligations.ChainLoadsItsWholeString : Prop :=
  ∀ (first last : Chunk) (mids : List Chunk) (s : State), s.PEND = [] →
    (∃ v : Word, v.toInt = wrap32 (chunkValue (first :: mids ++ [last])) ∧
      runInstrs (.inpv first true :: mids.map (fun k => .exti k true) ++ [.exti last false]) s =
        .next { s with V := v, pc := s.pc + BitVec.ofNat 32 (2 * (mids.length + 2)) }) ∧
    ∀ n ≤ mids.length,
      runInstrs (.inpv first true :: (mids.take n).map (fun k => .exti k true)) s =
        .next { s with PEND := first :: mids.take n, pc := s.pc + BitVec.ofNat 32 (2 * (n + 1)) }

/-- `10_state.md` section 6 (R36): the finite accumulator of a length saturated at 3 and the low 32 bits is
kept by appending and finalises to the same value, after any number of chunks. -/
def Obligations.FinitePendingFormIsEquivalent : Prop :=
  ∀ (ks : List Chunk) (k : Chunk),
    finPendOf (ks ++ [k]) = (finPendOf ks).append k ∧
      wrap32 (chunkValue (ks ++ [k])) = ((finPendOf ks).append k).value

/-- `41_immediate.md` sections 3 and 4 (R143, R146, R147): whatever integer `inpv` is given, the words the
Encoder emits for it load its normalised value, from an empty accumulator, and change nothing else but `pc`.
The width rule is the spec's own choice D27. -/
def Obligations.EncodedLiteralLoadsItsValue : Prop :=
  ∀ (n : Int) (s : State), s.PEND = [] →
    ∃ v : Word, v.toInt = wrap32 n ∧
      runInstrs (literalInstrs n) s =
        .next { s with V := v, pc := s.pc + BitVec.ofNat 32 (2 * (literalInstrs n).length) }

/-- `41_immediate.md` section 4 (R146, R147, R149): a literal in [-2048, 2046] is one LoadImmediate with flag
0; any other is a chain of at least two words, and of no more than the width with its guard bit needs. The
width rule is the spec's own choice D27. -/
def Obligations.EncoderEmitsDirectFormExactlyInRange : Prop :=
  ∀ n : Int,
    (-2048 ≤ n → n ≤ 2046 → ∃ k : Chunk, k.toInt = n ∧ literalInstrs n = [.inpv k false]) ∧
    (¬ (-2048 ≤ n ∧ n ≤ 2046) →
      (∃ (first last : Chunk) (mids : List Chunk), literalInstrs n =
        .inpv first true :: mids.map (fun k => .exti k true) ++ [.exti last false]) ∧
      fitsChunks n (literalInstrs n).length ∧ ∀ c, 1 ≤ c → fitsChunks n c → (literalInstrs n).length ≤ c)

/-! ### Frames and whole-machine rules -/

/-- `10_state.md` sections 2 to 4 (R21, R23, R26, R30): when any instruction gives a next state, each register
keeps its value unless the instruction names it as `dst` (`V` also where an immediate finalises; `C` only
where the instruction is a Compare), and so does every scratch entry but the selected one. -/
def Obligations.FrameOfRegistersAndScratch : Prop :=
  ∀ (i : Instr) (s t : State), exec i s = .next t →
    (i.dst? ≠ some .D → t.D = s.D) ∧ (i.dst? ≠ some .A → t.A = s.A) ∧
    (i.dst? ≠ some .S → t.S = s.S) ∧ (i.dst? ≠ some .L → t.L = s.L) ∧
    (i.dst? ≠ some .V → (∀ k, i ≠ .inpv k false) → (∀ k, i ≠ .exti k false) → t.V = s.V) ∧
    ((∀ lhs code rhs, i ≠ .comp lhs code rhs) → t.C = s.C) ∧
    ∀ j : BankIndex, ¬ (i.dst? = some .T ∧ j = s.BANK) → t.SCR[j] = s.SCR[j]

/-- `20_memory.md` sections 1 to 3 (R51, R52, R58, R61), `10_state.md` section 3 (R29), `41_immediate.md`
section 3 (R145, the spec's own choice D16): when any instruction gives a next state, every cell reads as
before but the one `A` selects where `dst` is `M`; only SetBank changes `BANK`, only the two immediates change
`PEND`, only the reserved form changes `STATUS`, and nothing changes the image. -/
def Obligations.FrameOfMemoryAndControlState : Prop :=
  ∀ (i : Instr) (s t : State), exec i s = .next t →
    (∀ a, ¬ (i.dst? = some .M ∧ a = s.dataAddr) → t.DMEM.read a = s.DMEM.read a) ∧
    ((∀ k, i ≠ .sett k) → t.BANK = s.BANK) ∧
    ((∀ k c, i ≠ .inpv k c) → (∀ k c, i ≠ .exti k c) → t.PEND = s.PEND) ∧
    (i.dst? ≠ some .C → t.STATUS = s.STATUS) ∧ t.IMEM = s.IMEM

/-- `10_state.md` section 3 (R30): an entry that is not selected is not reachable: whatever the unselected
entries hold, an instruction leaves the same state apart from them, and leaves them as they were. -/
def Obligations.UnselectedScratchEntriesAreInvisible : Prop :=
  ∀ (i : Instr) (s t : State) (scr : Vector Word 8), scr[s.BANK] = s.SCR[s.BANK] → exec i s = .next t →
    ∃ scr' : Vector Word 8, exec i { s with SCR := scr } = .next { t with SCR := scr' } ∧
      scr'[s.BANK] = t.SCR[s.BANK] ∧ ∀ j : BankIndex, j ≠ s.BANK → scr'[j] = scr[j]

/-- `20_memory.md` section 3 (R61): an instruction makes at most two data reads and at most one data write, all
at the one address `A` gives, and the write on the data port is exactly what memory undergoes. The data port
is the spec's own choice D25 (R270). -/
def Obligations.DataAccessesAreBoundedAndExact : Prop :=
  ∀ (i : Instr) (s t : State), exec i s = .next t →
    ((dataAccesses i s).filter (fun x => !x.dwrite)).length ≤ 2 ∧
    ((dataAccesses i s).filter (fun x => x.dwrite)).length ≤ 1 ∧
    (∀ x ∈ dataAccesses i s, x.daddr = s.dataAddr ∧ (x.dwrite = false → x.data = s.DMEM.read x.daddr)) ∧
    (∀ x ∈ dataAccesses i s, x.dwrite = true → t.DMEM = s.DMEM.write x.daddr x.data) ∧
    ((∀ x ∈ dataAccesses i s, x.dwrite = false) → t.DMEM = s.DMEM)

/-- `70_reset_and_hazards.md` section 3 (R270, the spec's own choice D25): the address on the instruction port
is always even and below `LEN`, and the word on it is the word there. -/
def Obligations.InstructionPortIsEvenAndInsideTheImage : Prop :=
  ∀ (s : State) (p : Word), s.ports.iaddr = some p →
    p.toInt % 2 = 0 ∧ 0 ≤ p.toInt ∧ p.toInt < (s.IMEM.length : Int) ∧
      ∃ w, s.ports.idata = some w ∧ (s.IMEM.length ≤ 2147483646 → Fetches s w)

/-- `10_state.md` section 8 (R34): data memory is a total function of the cell address; two memories in
canonical form that read alike at every cell are the same data. -/
def Obligations.MemoriesThatReadAlikeAreEqual : Prop :=
  ∀ m n : DMem, m.wf = true → n.wf = true → (∀ a, m.read a = n.read a) → m = n

/-! ### Invariants and reset -/

/-- Every step keeps the invariant: memory in canonical form (R34), `C` 0 or 1 (`10_state.md` section 4: it is
"written only by Compare"), and a `STATUS` that says what is so (R121, R230 to R234). That a Copy or AluOp to
`C` faults is the spec's own choice D14. -/
def Obligations.EveryStepKeepsTheInvariant : Prop :=
  ∀ s t : State, s.Inv → step s = .next t → t.Inv

/-- The invariant holds right after reset, with any image bound. -/
def Obligations.ResetHasTheInvariant : Prop :=
  State.reset.Inv ∧ ∀ image : List Byte, (State.boot image).Inv

/-- `10_state.md` section 10 and `70_reset_and_hazards.md` section 1 (R38, R260): every element's value after
reset with an image bound. The zeros of the registers, the scratch file, `BANK` and `pc` are the spec's own
choice D11, `STATUS` is D21; log entry 3. -/
def Obligations.ResetClearsEveryElement : Prop :=
  ∀ image : List Byte,
    (State.boot image).D = 0 ∧ (State.boot image).C = 0 ∧ (State.boot image).A = 0 ∧
    (State.boot image).V = 0 ∧ (State.boot image).S = 0 ∧ (State.boot image).L = 0 ∧
    (∀ j : BankIndex, (State.boot image).SCR[j] = 0) ∧ (State.boot image).BANK = 0 ∧
    (State.boot image).pc = 0 ∧ (State.boot image).PEND = [] ∧ (State.boot image).STATUS = .running ∧
    (∀ a, (State.boot image).DMEM.read a = 0) ∧ (State.boot image).IMEM = image

/-! ### Encoding -/

/-- Words written out from the formats and tables of `30_encoding.md` (R84 to R91) and the vectors of
`95_test_vectors.md` section 2.1, one of every row, decode to the instruction they stand for. Every number is
the spec's own choice (D1, D3 to D7, D30). -/
def Obligations.WordsOfTheSpecDecode : Prop :=
  decodeWord 0b000_000000001010_0#16 = .ok (.inpv 10 false) ∧
  decodeWord 0b001_100_000_0000000#16 = .ok (.copy .V .D) ∧
  decodeWord 0b010_100_001_0000000#16 = .ok (.jump .V .C) ∧
  decodeWord 0b011_110_001_100_0000#16 = .ok (.comp .S .gt .V) ∧
  decodeWord 0b100_000_000_100_000_0#16 = .ok (.addr .D .V .D) ∧
  decodeWord 0b100_001_110_100_110_0#16 = .ok (.subr .S .V .S) ∧
  decodeWord 0b100_010_100_100_101_0#16 = .ok (.mulr .V .V .T) ∧
  decodeWord 0b100_011_101_100_000_0#16 = .ok (.divr .T .V .D) ∧
  decodeWord 0b100_100_111_100_111_0#16 = .ok (.rmvr .L .V .L) ∧
  decodeWord 0b100_101_111_100_101_0#16 = .ok (.lmvr .L .V .T) ∧
  decodeWord 0b100_110_000_100_000_0#16 = .ok (.andr .D .V .D) ∧
  decodeWord 0b100_111_000_100_000_0#16 = .ok (.or_r .D .V .D) ∧
  decodeWord 0b101_011111111111_0#16 = .ok (.exti 0x7FF false) ∧
  decodeWord 0b110_011_0000000000#16 = .ok (.sett 3) ∧
  decodeWord 0b111_0000000000000#16 = .error .illegalOpcode

/-- `30_encoding.md` section 4 (R93) with the code tables (R21, R90, R91), all numbers being the spec's own
choice (D1, D3 to D7, D30): on every one of the 2^16 words the decoder gives what the rule gives, field by
field, and rejects exactly the words of opcode 7. -/
def Obligations.DecoderIsTheTableOnEveryWord : Prop :=
  (∀ w : InstrWord, decodeWord w = tableDecode w.toNat) ∧
    ∀ w : InstrWord, (∃ e, decodeWord w = .error e) ↔ 0xE000 ≤ w.toNat

/-- `30_encoding.md` section 4 (R99): decoding the canonical word of any instruction gives it back, the ones
with the reserved destination included. -/
def Obligations.DecodeOfEncodeIsTheInstruction : Prop :=
  ∀ i : Instr, decodeWord (encode i) = .ok i

/-- `30_encoding.md` sections 2 and 4 (R89, R98): a word that decodes differs from the canonical word of its
instruction in pad bits only, and clearing them changes nothing. That the core ignores pad bits is the spec's
own choice D13. -/
def Obligations.PadBitsAreIgnored : Prop :=
  ∀ (w : InstrWord) (i : Instr), decodeWord w = .ok i →
    encode i = w &&& fieldMask i ∧ decodeWord (w &&& fieldMask i) = .ok i

/-- `30_encoding.md` section 4 (R99: "Decode(Encode(p)) == p"): the bytes of any program decode to it. -/
def Obligations.DecodeOfEncodedProgramIsTheProgram : Prop :=
  ∀ p : List Instr, decodeProgram (encodeProgram p) = .ok p

/-- `30_encoding.md` section 1 (R80), `20_memory.md` section 2 (R54, R55), `40_pipeline.md` section 1 (R120,
R121): a core running on the encoded bytes of any program executes, at `pc = 2n`, exactly its instruction `n`,
and halts after the last one. The byte order is D8. -/
def Obligations.CoreExecutesTheEncodedProgram : Prop :=
  ∀ (p : List Instr) (s : State), s.STATUS = .running → s.IMEM = encodeProgram p →
    2 * p.length ≤ 2147483646 →
    (∀ (n : Nat) (i : Instr), p[n]? = some i → s.pc.toInt = 2 * (n : Int) → step s = exec i s) ∧
      (s.pc.toInt = 2 * (p.length : Int) → step s = .next { s with STATUS := .halted })

/-- `30_encoding.md` section 5 (R100 to R106): the rules' own lines of text assemble to the rules' own words; a
wrong arity, a wrong sigil and an unknown mnemonic are format errors. Operand orders and numbers are the
spec's own choices (D26; D1, D3 to D7). -/
def Obligations.LinesOfTextAssembleToTheirWords : Prop :=
  (assembleText ["inpv 10", "copy $V $D", "copy $D $M", "jump $V $C", "comp $S > $V", "addr $D $V $D",
      "sett 3", "inpv 2047", "inpv -2049"]).map (fun p => p.map encode) =
    .ok [0x0014, 0x3000, 0x2180, 0x5080, 0x78C0, 0x8040, 0xCC00, 0x0001, 0xAFFE, 0x1FFF, 0xAFFE] ∧
  assembleText ["copy $V"] = .error .wrongArity ∧
  assembleText ["copy V $D"] = .error .badOperand ∧
  assembleText ["sett 8"] = .error .badOperand ∧
  assembleText ["xorr $D $V $D"] = .error .unknownMnemonic
end

