-- ==== Sys2Proof/Laws/Memory.lean ====
section
/-! SUPPORT. The laws of the data memory (`20_memory.md` R57, R58): a read after a write, and that every
memory operation keeps the canonical form. -/

namespace Sys2Proof.Machine.DMem

/-- A cell that nothing has written reads as 0 (R57). -/
@[simp] theorem read_nil (a : Nat) : read [] a = Config.unwrittenCell := rfl

theorem read_insert (m : DMem) (a b : Nat) (v : Word) (h : ∀ cell ∈ m, cell.1 ≠ a) :
    (insert a v m).read b = if b = a then v else m.read b := by
  induction m with
  | nil => rfl
  | cons cell m ih =>
    obtain ⟨c, u⟩ := cell
    have hc : c ≠ a := h (c, u) (by simp)
    have ih := ih (fun cell hm => h cell (by simp [hm]))
    by_cases hlt : a < c
    · simp [insert, hlt, read]
    · by_cases hb : b = a
      · subst hb
        simp [insert, hlt, read, ih, Ne.symm hc]
      · simp [insert, hlt, read, ih, hb]

theorem read_filter (m : DMem) (a b : Nat) :
    read (m.filter (fun cell => cell.1 ≠ a)) b = if b = a then Config.unwrittenCell else m.read b := by
  induction m with
  | nil => simp
  | cons cell m ih =>
    obtain ⟨c, u⟩ := cell
    by_cases hc : c = a
    · subst hc
      by_cases hb : b = c <;> simp_all [read]
    · by_cases hb : b = a
      · subst hb
        simp_all [read, Ne.symm hc]
      · simp_all [read]

/-- `MemWrite` then `MemRead` (R57, R58): the cell written holds the value, every other cell is as before. -/
theorem read_write (m : DMem) (a b : Nat) (v : Word) :
    (m.write a v).read b = if b = a then v else m.read b := by
  unfold write
  by_cases hv : v = Config.unwrittenCell
  · simp only [hv, if_true, read_filter]
  · simp only [hv, if_false]
    rw [read_insert _ _ _ _ (by simp), read_filter]
    by_cases hb : b = a <;> simp [hb]

theorem mem_insert (m : DMem) (a : Nat) (v : Word) (cell : Nat × Word) :
    cell ∈ insert a v m ↔ cell = (a, v) ∨ cell ∈ m := by
  induction m with
  | nil => simp [insert]
  | cons c m ih =>
    by_cases h : a < c.1
    · simp [insert, h]
    · simp only [insert, h, if_false, List.mem_cons, ih]
      tauto

theorem pairwise_insert (m : DMem) (a : Nat) (v : Word) (hs : m.Pairwise (fun x y => x.1 < y.1))
    (hne : ∀ cell ∈ m, cell.1 ≠ a) : (insert a v m).Pairwise (fun x y => x.1 < y.1) := by
  induction m with
  | nil => simp [insert]
  | cons c m ih =>
    obtain ⟨hc, hm⟩ := List.pairwise_cons.1 hs
    by_cases h : a < c.1
    · simp only [insert, h, if_true, List.pairwise_cons]
      refine ⟨fun x hx => ?_, hc, hm⟩
      rcases List.mem_cons.1 hx with rfl | hx
      · exact h
      · exact h.trans (hc x hx)
    · simp only [insert, h, if_false, List.pairwise_cons]
      have hca : c.1 < a := by
        have := hne c (by simp)
        omega
      refine ⟨fun x hx => ?_, ih hm (fun cell hx => hne cell (by simp [hx]))⟩
      rcases (mem_insert m a v x).1 hx with rfl | hx
      · exact hca
      · exact hc x hx

/-- The canonical form, as a proposition. -/
theorem wf_iff (m : DMem) : m.wf = true ↔
    m.Pairwise (fun x y => x.1 < y.1) ∧ ∀ cell ∈ m, cell.1 < 2 ^ 32 ∧ cell.2 ≠ Config.unwrittenCell := by
  simp [wf]

/-- The empty memory is in canonical form. -/
@[simp] theorem wf_nil : wf [] = true := rfl

/-- A write to a cell address keeps the canonical form. -/
theorem wf_write (m : DMem) (a : Nat) (v : Word) (h : m.wf = true) (ha : a < 2 ^ 32) :
    (m.write a v).wf = true := by
  obtain ⟨hs, hc⟩ := (wf_iff m).1 h
  have hs' : (m.filter (fun cell => cell.1 ≠ a)).Pairwise (fun x y => x.1 < y.1) := hs.filter _
  have hc' : ∀ cell ∈ m.filter (fun cell => cell.1 ≠ a), cell.1 < 2 ^ 32 ∧ cell.2 ≠ Config.unwrittenCell :=
    fun cell hm => hc cell (List.mem_of_mem_filter hm)
  unfold write
  by_cases hv : v = Config.unwrittenCell
  · simp only [hv, if_true]
    exact (wf_iff _).2 ⟨hs', hc'⟩
  · simp only [hv, if_false]
    refine (wf_iff _).2 ⟨pairwise_insert _ _ _ hs' (by simp), fun cell hm => ?_⟩
    rcases (mem_insert _ a v cell).1 hm with rfl | hm
    · exact ⟨ha, hv⟩
    · exact hc' cell hm

end Sys2Proof.Machine.DMem

namespace Sys2Proof.Machine

/-- Every data address is a cell address (R50, R59). -/
theorem State.dataAddr_lt (s : State) : s.dataAddr < 2 ^ 32 := s.A.isLt

/-- The one memory operation an instruction makes keeps the canonical form. -/
theorem State.wf_writeReg (s : State) (r : Reg) (v : Word) (h : s.DMEM.wf = true) :
    (s.writeReg r v).DMEM.wf = true := by
  cases r <;> first | exact h | exact DMem.wf_write _ _ _ h s.dataAddr_lt

end Sys2Proof.Machine
end

