-- ==== Sys2Proof/Laws/State.lean ====
section
/-! SUPPORT. One lemma per field per update of the state, so that no later proof unfolds a record update. -/

namespace Sys2Proof.Machine.State

variable (s : State)

/-! ### `setPc` -/

@[simp] theorem setPc_D (p : Word) : (s.setPc p).D = s.D := rfl
@[simp] theorem setPc_C (p : Word) : (s.setPc p).C = s.C := rfl
@[simp] theorem setPc_A (p : Word) : (s.setPc p).A = s.A := rfl
@[simp] theorem setPc_V (p : Word) : (s.setPc p).V = s.V := rfl
@[simp] theorem setPc_S (p : Word) : (s.setPc p).S = s.S := rfl
@[simp] theorem setPc_L (p : Word) : (s.setPc p).L = s.L := rfl
@[simp] theorem setPc_BANK (p : Word) : (s.setPc p).BANK = s.BANK := rfl
@[simp] theorem setPc_SCR (p : Word) : (s.setPc p).SCR = s.SCR := rfl
@[simp] theorem setPc_pc (p : Word) : (s.setPc p).pc = p := rfl
@[simp] theorem setPc_PEND (p : Word) : (s.setPc p).PEND = s.PEND := rfl
@[simp] theorem setPc_STATUS (p : Word) : (s.setPc p).STATUS = s.STATUS := rfl
@[simp] theorem setPc_DMEM (p : Word) : (s.setPc p).DMEM = s.DMEM := rfl
@[simp] theorem setPc_IMEM (p : Word) : (s.setPc p).IMEM = s.IMEM := rfl

/-! ### `advance` -/

@[simp] theorem advance_D : (s.advance).D = s.D := rfl
@[simp] theorem advance_C : (s.advance).C = s.C := rfl
@[simp] theorem advance_A : (s.advance).A = s.A := rfl
@[simp] theorem advance_V : (s.advance).V = s.V := rfl
@[simp] theorem advance_S : (s.advance).S = s.S := rfl
@[simp] theorem advance_L : (s.advance).L = s.L := rfl
@[simp] theorem advance_BANK : (s.advance).BANK = s.BANK := rfl
@[simp] theorem advance_SCR : (s.advance).SCR = s.SCR := rfl
@[simp] theorem advance_pc : (s.advance).pc = s.pc + 2 := rfl
@[simp] theorem advance_PEND : (s.advance).PEND = s.PEND := rfl
@[simp] theorem advance_STATUS : (s.advance).STATUS = s.STATUS := rfl
@[simp] theorem advance_DMEM : (s.advance).DMEM = s.DMEM := rfl
@[simp] theorem advance_IMEM : (s.advance).IMEM = s.IMEM := rfl

/-! ### `halt` -/

@[simp] theorem halt_D : (s.halt).D = s.D := rfl
@[simp] theorem halt_C : (s.halt).C = s.C := rfl
@[simp] theorem halt_A : (s.halt).A = s.A := rfl
@[simp] theorem halt_V : (s.halt).V = s.V := rfl
@[simp] theorem halt_S : (s.halt).S = s.S := rfl
@[simp] theorem halt_L : (s.halt).L = s.L := rfl
@[simp] theorem halt_BANK : (s.halt).BANK = s.BANK := rfl
@[simp] theorem halt_SCR : (s.halt).SCR = s.SCR := rfl
@[simp] theorem halt_pc : (s.halt).pc = s.pc := rfl
@[simp] theorem halt_PEND : (s.halt).PEND = s.PEND := rfl
@[simp] theorem halt_STATUS : (s.halt).STATUS = .halted := rfl
@[simp] theorem halt_DMEM : (s.halt).DMEM = s.DMEM := rfl
@[simp] theorem halt_IMEM : (s.halt).IMEM = s.IMEM := rfl

/-! ### `raise` -/

@[simp] theorem raise_D (c : FaultCause) (w : Option InstrWord) : (s.raise c w).D = s.D := rfl
@[simp] theorem raise_C (c : FaultCause) (w : Option InstrWord) : (s.raise c w).C = s.C := rfl
@[simp] theorem raise_A (c : FaultCause) (w : Option InstrWord) : (s.raise c w).A = s.A := rfl
@[simp] theorem raise_V (c : FaultCause) (w : Option InstrWord) : (s.raise c w).V = s.V := rfl
@[simp] theorem raise_S (c : FaultCause) (w : Option InstrWord) : (s.raise c w).S = s.S := rfl
@[simp] theorem raise_L (c : FaultCause) (w : Option InstrWord) : (s.raise c w).L = s.L := rfl
@[simp] theorem raise_BANK (c : FaultCause) (w : Option InstrWord) : (s.raise c w).BANK = s.BANK := rfl
@[simp] theorem raise_SCR (c : FaultCause) (w : Option InstrWord) : (s.raise c w).SCR = s.SCR := rfl
@[simp] theorem raise_pc (c : FaultCause) (w : Option InstrWord) : (s.raise c w).pc = s.pc := rfl
@[simp] theorem raise_PEND (c : FaultCause) (w : Option InstrWord) : (s.raise c w).PEND = s.PEND := rfl
@[simp] theorem raise_STATUS (c : FaultCause) (w : Option InstrWord) : (s.raise c w).STATUS = .faulted c s.pc w := rfl
@[simp] theorem raise_DMEM (c : FaultCause) (w : Option InstrWord) : (s.raise c w).DMEM = s.DMEM := rfl
@[simp] theorem raise_IMEM (c : FaultCause) (w : Option InstrWord) : (s.raise c w).IMEM = s.IMEM := rfl

/-! ### `setFlag` -/

@[simp] theorem setFlag_D (r : Bool) : (s.setFlag r).D = s.D := rfl
@[simp] theorem setFlag_C (r : Bool) : (s.setFlag r).C = flagWord r := rfl
@[simp] theorem setFlag_A (r : Bool) : (s.setFlag r).A = s.A := rfl
@[simp] theorem setFlag_V (r : Bool) : (s.setFlag r).V = s.V := rfl
@[simp] theorem setFlag_S (r : Bool) : (s.setFlag r).S = s.S := rfl
@[simp] theorem setFlag_L (r : Bool) : (s.setFlag r).L = s.L := rfl
@[simp] theorem setFlag_BANK (r : Bool) : (s.setFlag r).BANK = s.BANK := rfl
@[simp] theorem setFlag_SCR (r : Bool) : (s.setFlag r).SCR = s.SCR := rfl
@[simp] theorem setFlag_pc (r : Bool) : (s.setFlag r).pc = s.pc := rfl
@[simp] theorem setFlag_PEND (r : Bool) : (s.setFlag r).PEND = s.PEND := rfl
@[simp] theorem setFlag_STATUS (r : Bool) : (s.setFlag r).STATUS = s.STATUS := rfl
@[simp] theorem setFlag_DMEM (r : Bool) : (s.setFlag r).DMEM = s.DMEM := rfl
@[simp] theorem setFlag_IMEM (r : Bool) : (s.setFlag r).IMEM = s.IMEM := rfl

/-! ### `immStep` -/

@[simp] theorem immStep_D (k : Chunk) (c : Bool) : (s.immStep k c).D = s.D := by cases c <;> rfl
@[simp] theorem immStep_C (k : Chunk) (c : Bool) : (s.immStep k c).C = s.C := by cases c <;> rfl
@[simp] theorem immStep_A (k : Chunk) (c : Bool) : (s.immStep k c).A = s.A := by cases c <;> rfl
@[simp] theorem immStep_V (k : Chunk) (c : Bool) :
    (s.immStep k c).V = if c then s.V else ofVal (sextBits (s.PEND ++ [k])) := by cases c <;> rfl
@[simp] theorem immStep_S (k : Chunk) (c : Bool) : (s.immStep k c).S = s.S := by cases c <;> rfl
@[simp] theorem immStep_L (k : Chunk) (c : Bool) : (s.immStep k c).L = s.L := by cases c <;> rfl
@[simp] theorem immStep_BANK (k : Chunk) (c : Bool) : (s.immStep k c).BANK = s.BANK := by cases c <;> rfl
@[simp] theorem immStep_SCR (k : Chunk) (c : Bool) : (s.immStep k c).SCR = s.SCR := by cases c <;> rfl
@[simp] theorem immStep_pc (k : Chunk) (c : Bool) : (s.immStep k c).pc = s.pc + 2 := by cases c <;> rfl
@[simp] theorem immStep_PEND (k : Chunk) (c : Bool) :
    (s.immStep k c).PEND = if c then s.PEND ++ [k] else [] := by cases c <;> rfl
@[simp] theorem immStep_STATUS (k : Chunk) (c : Bool) : (s.immStep k c).STATUS = s.STATUS := by cases c <;> rfl
@[simp] theorem immStep_DMEM (k : Chunk) (c : Bool) : (s.immStep k c).DMEM = s.DMEM := by cases c <;> rfl
@[simp] theorem immStep_IMEM (k : Chunk) (c : Bool) : (s.immStep k c).IMEM = s.IMEM := by cases c <;> rfl

/-! ### `writeReg` -/

@[simp] theorem writeReg_D (r : Reg) (v : Word) : (s.writeReg r v).D = if r = .D then v else s.D := by
  cases r <;> rfl
@[simp] theorem writeReg_C (r : Reg) (v : Word) : (s.writeReg r v).C = s.C := by cases r <;> rfl
@[simp] theorem writeReg_A (r : Reg) (v : Word) : (s.writeReg r v).A = if r = .A then v else s.A := by
  cases r <;> rfl
@[simp] theorem writeReg_V (r : Reg) (v : Word) : (s.writeReg r v).V = if r = .V then v else s.V := by
  cases r <;> rfl
@[simp] theorem writeReg_S (r : Reg) (v : Word) : (s.writeReg r v).S = if r = .S then v else s.S := by
  cases r <;> rfl
@[simp] theorem writeReg_L (r : Reg) (v : Word) : (s.writeReg r v).L = if r = .L then v else s.L := by
  cases r <;> rfl
@[simp] theorem writeReg_BANK (r : Reg) (v : Word) : (s.writeReg r v).BANK = s.BANK := by cases r <;> rfl
@[simp] theorem writeReg_SCR (r : Reg) (v : Word) :
    (s.writeReg r v).SCR = if r = .T then s.SCR.set s.BANK v else s.SCR := by
  cases r <;> rfl
@[simp] theorem writeReg_pc (r : Reg) (v : Word) : (s.writeReg r v).pc = s.pc := by cases r <;> rfl
@[simp] theorem writeReg_PEND (r : Reg) (v : Word) : (s.writeReg r v).PEND = s.PEND := by cases r <;> rfl
@[simp] theorem writeReg_STATUS (r : Reg) (v : Word) : (s.writeReg r v).STATUS = s.STATUS := by cases r <;> rfl
@[simp] theorem writeReg_DMEM (r : Reg) (v : Word) :
    (s.writeReg r v).DMEM = if r = .M then s.DMEM.write s.dataAddr v else s.DMEM := by
  cases r <;> rfl
@[simp] theorem writeReg_IMEM (r : Reg) (v : Word) : (s.writeReg r v).IMEM = s.IMEM := by cases r <;> rfl

/-! ### `readReg` (R125) -/

@[simp] theorem readReg_D : s.readReg .D = s.D := rfl
@[simp] theorem readReg_C : s.readReg .C = s.C := rfl
@[simp] theorem readReg_A : s.readReg .A = s.A := rfl
@[simp] theorem readReg_V : s.readReg .V = s.V := rfl
@[simp] theorem readReg_S : s.readReg .S = s.S := rfl
@[simp] theorem readReg_L : s.readReg .L = s.L := rfl
@[simp] theorem readReg_M : s.readReg .M = s.DMEM.read s.dataAddr := rfl
@[simp] theorem readReg_T : s.readReg .T = s.SCR[s.BANK] := rfl

/-- An operand read depends on the registers, the scratch file, the bank index and the memory alone. -/
theorem readReg_congr {s t : State} (hD : s.D = t.D) (hC : s.C = t.C) (hA : s.A = t.A) (hV : s.V = t.V)
    (hS : s.S = t.S) (hL : s.L = t.L) (hB : s.BANK = t.BANK) (hR : s.SCR = t.SCR) (hM : s.DMEM = t.DMEM)
    (r : Reg) : s.readReg r = t.readReg r := by
  cases r <;> simp [dataAddr, *]

/-! ### The fetch -/

/-- The word fetched depends on `pc` and the image alone. -/
theorem fetchWord?_congr {s t : State} (hp : s.pc = t.pc) (hI : s.IMEM = t.IMEM) :
    s.fetchWord? = t.fetchWord? := by
  simp [fetchWord?, hp, hI]

@[simp] theorem fetchWord?_halt : s.halt.fetchWord? = s.fetchWord? := rfl
@[simp] theorem fetchWord?_raise (c : FaultCause) (w : Option InstrWord) :
    (s.raise c w).fetchWord? = s.fetchWord? := rfl

/-! ### Reset with an image (R260) -/

@[simp] theorem boot_IMEM (image : List Byte) : (boot image).IMEM = image := rfl
@[simp] theorem boot_pc (image : List Byte) : (boot image).pc = 0 := rfl
@[simp] theorem boot_STATUS (image : List Byte) : (boot image).STATUS = .running := rfl

end Sys2Proof.Machine.State
end

