-- ==== Sys2Proof/Laws/Exec.lean ====
section
/-! SUPPORT. What the shared write half of Copy and AluOp can do, and the form of every meaning's next state:
the lemmas to cite instead of unfolding `exec`. -/

namespace Sys2Proof.Machine

/-- The reserved destination (R234). -/
theorem State.writeBack_C (s : State) (v : Word) :
    s.writeBack .C v = .next (s.raise .reservedOperand s.fetchWord?) := rfl

/-- Any other destination (R160, R190). -/
theorem State.writeBack_of_ne (s : State) (dst : Reg) (v : Word) (h : dst ≠ .C) :
    s.writeBack dst v = .next (s.writeReg dst v).advance := by
  simp [State.writeBack, h]

/-- Everything `writeBack` can do. -/
theorem State.writeBack_cases {s t : State} {dst : Reg} {v : Word} (h : s.writeBack dst v = .next t) :
    (dst = .C ∧ t = s.raise .reservedOperand s.fetchWord?) ∨
      (dst ≠ .C ∧ t = (s.writeReg dst v).advance) := by
  by_cases hd : dst = .C
  · subst hd
    exact .inl ⟨rfl, by simpa [State.writeBack] using h.symm⟩
  · exact .inr ⟨hd, by simpa [State.writeBack, hd] using h.symm⟩

/-- The value a Copy or an AluOp writes to its destination (R160, R191 to R198); of no meaning for the other
instructions. -/
def resultOf (i : Instr) (s : State) : Word :=
  match i with
  | .copy src _ => s.readReg src
  | .addr l r _ => aluAdd (s.readReg l) (s.readReg r)
  | .subr l r _ => aluSub (s.readReg l) (s.readReg r)
  | .mulr l r _ => aluMul (s.readReg l) (s.readReg r)
  | .divr l r _ => aluDiv (s.readReg l) (s.readReg r)
  | .rmvr l r _ => aluRmv (s.readReg l) (s.readReg r)
  | .lmvr l r _ => aluLmv (s.readReg l) (s.readReg r)
  | .andr l r _ => aluAnd (s.readReg l) (s.readReg r)
  | .or_r l r _ => aluOr (s.readReg l) (s.readReg r)
  | .inpv _ _ => 0
  | .jump _ _ => 0
  | .comp _ _ _ => 0
  | .exti _ _ => 0
  | .sett _ => 0

/-- An instruction with a `dst` field is `writeBack` of its result. -/
theorem exec_of_dst {i : Instr} {s : State} {dst : Reg} (h : i.dst? = some dst) :
    exec i s = s.writeBack dst (resultOf i s) := by
  cases i <;> cases h <;> rfl

/-- Everything `exec` can do when it answers a next state. -/
theorem exec_cases {i : Instr} {s t : State} (h : exec i s = .next t) :
    (i.dst? = some .C ∧ t = s.raise .reservedOperand s.fetchWord?) ∨
    (∃ dst, i.dst? = some dst ∧ dst ≠ .C ∧ t = (s.writeReg dst (resultOf i s)).advance) ∨
    (∃ k c, (i = .inpv k c ∨ i = .exti k c) ∧ t = s.immStep k c) ∨
    (∃ target flag, i = .jump target flag ∧
      t = if s.readReg flag ≠ 0 then s.setPc (s.readReg target) else s.advance) ∨
    (∃ lhs code rhs, i = .comp lhs code rhs ∧
      t = (s.setFlag (condHolds code (s.readReg lhs).toInt (s.readReg rhs).toInt)).advance) ∨
    (∃ k, i = .sett k ∧ t = { s with BANK := k }.advance) := by
  cases hd : i.dst? with
  | some dst =>
    rw [exec_of_dst hd] at h
    rcases State.writeBack_cases h with ⟨rfl, rfl⟩ | ⟨hne, rfl⟩
    · exact .inl ⟨rfl, rfl⟩
    · exact .inr (.inl ⟨dst, rfl, hne, rfl⟩)
  | none =>
    right; right
    cases i with
    | inpv k c => exact .inl ⟨k, c, .inl rfl, (Host.Outcome.next.inj h).symm⟩
    | exti k c => exact .inl ⟨k, c, .inr rfl, (Host.Outcome.next.inj h).symm⟩
    | jump target flag => exact .inr (.inl ⟨target, flag, rfl, (Host.Outcome.next.inj h).symm⟩)
    | comp lhs code rhs => exact .inr (.inr (.inl ⟨lhs, code, rhs, rfl, (Host.Outcome.next.inj h).symm⟩))
    | sett k => exact .inr (.inr (.inr ⟨k, rfl, (Host.Outcome.next.inj h).symm⟩))
    | _ => cases hd

end Sys2Proof.Machine
end

