-- ==== Sys2Proof/Laws/PerInstr.lean ====
section
/-! SUPPORT. A law of each instruction as syntax: its canonical word has every pad bit 0 (`30_encoding.md`
R81, R89, R98). One lemma per constructor. -/

namespace Sys2Proof.Laws.PadZero

/-- The canonical word has no bit outside its fields. -/
def Statement (i : Instr) : Prop := encode i &&& ~~~ (fieldMask i) = 0

theorem pad_formatI (op : BitVec 3) (k : Chunk) (c : Bool) : formatI op k c &&& ~~~ (0xFFFF : InstrWord) = 0 := by
  have : ~~~ (0xFFFF : InstrWord) = 0 := by decide
  rw [this]
  exact BitVec.and_zero

theorem inpv (imm12 : Chunk) (cont : Bool) : Statement (.inpv imm12 cont) := pad_formatI _ _ _
theorem copy (src dst : Reg) : Statement (.copy src dst) := by cases src <;> cases dst <;> rfl
theorem jump (target flag : Reg) : Statement (.jump target flag) := by cases target <;> cases flag <;> rfl
theorem comp (lhs : Reg) (code : CmpCode) (rhs : Reg) : Statement (.comp lhs code rhs) := by
  cases lhs <;> cases code <;> cases rhs <;> rfl
theorem addr (lhs rhs dst : Reg) : Statement (.addr lhs rhs dst) := by
  cases lhs <;> cases rhs <;> cases dst <;> rfl
theorem subr (lhs rhs dst : Reg) : Statement (.subr lhs rhs dst) := by
  cases lhs <;> cases rhs <;> cases dst <;> rfl
theorem mulr (lhs rhs dst : Reg) : Statement (.mulr lhs rhs dst) := by
  cases lhs <;> cases rhs <;> cases dst <;> rfl
theorem divr (lhs rhs dst : Reg) : Statement (.divr lhs rhs dst) := by
  cases lhs <;> cases rhs <;> cases dst <;> rfl
theorem rmvr (lhs rhs dst : Reg) : Statement (.rmvr lhs rhs dst) := by
  cases lhs <;> cases rhs <;> cases dst <;> rfl
theorem lmvr (lhs rhs dst : Reg) : Statement (.lmvr lhs rhs dst) := by
  cases lhs <;> cases rhs <;> cases dst <;> rfl
theorem andr (lhs rhs dst : Reg) : Statement (.andr lhs rhs dst) := by
  cases lhs <;> cases rhs <;> cases dst <;> rfl
theorem or_r (lhs rhs dst : Reg) : Statement (.or_r lhs rhs dst) := by
  cases lhs <;> cases rhs <;> cases dst <;> rfl
theorem exti (imm12 : Chunk) (cont : Bool) : Statement (.exti imm12 cont) := pad_formatI _ _ _
theorem sett (index : BankIndex) : Statement (.sett index) := by
  revert index
  unfold Statement
  decide

end Sys2Proof.Laws.PadZero
end

