-- ==== Sys2Proof/Laws/Step.lean ====
section
/-! SUPPORT. What one step can do (`40_pipeline.md` R120), and that an instruction placed for the next fetch is
the one the next step runs. -/

namespace Sys2Proof.Machine

/-- A fetch reads at a valid fetch offset only. -/
theorem State.fetchable_of_fetchWord? {s : State} {w : InstrWord} (h : s.fetchWord? = some w) :
    fetchable s.pc s.IMEM.length = true := by
  by_contra hf
  simp [State.fetchWord?, hf] at h

/-- At a valid fetch offset `pc` is not the image length (R56). -/
theorem pc_ne_length_of_fetchable {pc : Word} {len : Nat} (h : fetchable pc len = true) :
    pc.toInt ≠ (len : Int) := by
  simp only [fetchable, decide_eq_true_eq] at h
  omega

/-- Everything a step can do when it answers a next state, guards included. -/
theorem step_cases {s t : State} (h : step s = .next t) :
    (s.STATUS ≠ .running ∧ t = s) ∨
    (s.STATUS = .running ∧ s.IMEM.length ≤ Config.maxImageBytes ∧
      ((s.pc.toInt = (s.IMEM.length : Int) ∧ t = s.halt) ∨
       (s.pc.toInt ≠ (s.IMEM.length : Int) ∧
        ((s.fetchWord? = none ∧ t = s.raise .fetchFault none) ∨
         (∃ w e, s.fetchWord? = some w ∧ decodeWord w = .error e ∧ t = s.raise .decodeError (some w)) ∨
         (∃ w i, s.fetchWord? = some w ∧ decodeWord w = .ok i ∧ exec i s = .next t))))) := by
  unfold step at h
  split at h
  next hs => exact .inl ⟨by simp [hs], (Host.Outcome.next.inj h).symm⟩
  next hs => exact .inl ⟨by simp [hs], (Host.Outcome.next.inj h).symm⟩
  next hs =>
    refine .inr ⟨hs, ?_⟩
    split at h
    next => cases h
    next hlen =>
      refine ⟨by omega, ?_⟩
      split at h
      next hpc => exact .inl ⟨hpc, (Host.Outcome.next.inj h).symm⟩
      next hpc =>
        refine .inr ⟨hpc, ?_⟩
        split at h
        next hw => exact .inl ⟨hw, (Host.Outcome.next.inj h).symm⟩
        next w hw =>
          split at h
          next e hd => exact .inr (.inl ⟨w, e, hw, hd, (Host.Outcome.next.inj h).symm⟩)
          next i hd => exact .inr (.inr ⟨w, i, hw, hd, h⟩)

/-- A running core that fetches a word which decodes executes the instruction. -/
theorem step_of_fetchWord? {s : State} {w : InstrWord} {i : Instr} (hs : s.STATUS = .running)
    (hlen : s.IMEM.length ≤ Config.maxImageBytes) (hw : s.fetchWord? = some w)
    (hd : decodeWord w = .ok i) : step s = exec i s := by
  have hpc := pc_ne_length_of_fetchable (State.fetchable_of_fetchWord? hw)
  simp [step, hs, hpc, hw, hd, Nat.not_lt.2 hlen]

/-! ### Placing an instruction -/

theorem wordOfBytes_bytesOfWord (w : InstrWord) : wordOfBytes (highByte w) (lowByte w) = w := by
  apply BitVec.eq_of_toNat_eq
  have := w.isLt
  simp only [wordOfBytes, highByte, lowByte, BitVec.toNat_append, BitVec.extractLsb_toNat,
    Nat.shiftRight_zero, Nat.shiftLeft_eq]
  rw [← Nat.shiftLeft_eq, ← Nat.shiftLeft_add_eq_or_of_lt (Nat.mod_lt _ (by decide)), Nat.shiftLeft_eq,
    Nat.shiftRight_eq_div_pow]
  omega

theorem fetch16_placeWord (image : List Byte) (p n : Nat) (w : InstrWord) (h : p + 2 ≤ n) :
    fetch16 ((placeWord image p w).take n) p = some w := by
  have hl : (image.take p ++ List.replicate (p - image.length) (0 : Byte)).length = p := by
    simp only [List.length_append, List.length_take, List.length_replicate]
    omega
  obtain ⟨m, rfl⟩ : ∃ m, n = p + (m + 2) := ⟨n - p - 2, by omega⟩
  have : ((placeWord image p w).take (p + (m + 2))).drop p =
      highByte w :: lowByte w :: (image.drop (p + Config.instrBytes)).take m := by
    rw [List.drop_take, Nat.add_sub_cancel_left, placeWord, List.append_assoc, List.drop_append_of_le_length (by omega),
      List.drop_of_length_le (by omega)]
    simp [bytesOfWord]
  simp [fetch16, this, wordOfBytes_bytesOfWord]

theorem toNat_fetchOffset (s : State) :
    (BitVec.ofNat 32 s.fetchOffset).toNat = s.fetchOffset ∧ s.fetchOffset % 2 = 0 ∧
      s.fetchOffset + 2 ≤ Config.maxImageBytes := by
  have hmax : Config.maxImageBytes = 2147483646 := rfl
  unfold State.fetchOffset
  split
  next h =>
    simp only [fetchable, decide_eq_true_eq, BitVec.toInt_eq_toNat_cond, hmax] at h
    have := s.pc.isLt
    simp only [BitVec.toNat_ofNat, hmax]
    split at h <;> omega
  next => exact ⟨rfl, rfl, by decide⟩

theorem length_placeWord (image : List Byte) (p : Nat) (w : InstrWord) :
    p + 2 ≤ (placeWord image p w).length := by
  simp only [placeWord, bytesOfWord, List.length_append, List.length_take, List.length_replicate,
    List.length_cons, List.length_nil]
  omega

/-- What is placed is what the next fetch reads. -/
theorem State.fetchWord?_placeNext (s : State) (w : InstrWord) : (s.placeNext w).fetchWord? = some w := by
  obtain ⟨hn, heven, hle⟩ := toNat_fetchOffset s
  have hlen : s.fetchOffset + 2 ≤ (s.placeNext w).IMEM.length := by
    have := length_placeWord s.IMEM s.fetchOffset w
    simp only [State.placeNext, List.length_take]
    omega
  have hint : ((s.placeNext w).pc).toInt = (s.fetchOffset : Int) := by
    have hmax : Config.maxImageBytes = 2147483646 := rfl
    simp only [State.placeNext, BitVec.toInt_eq_toNat_cond, hn]
    split <;> omega
  have hf : fetchable (s.placeNext w).pc (s.placeNext w).IMEM.length = true := by
    simp only [fetchable, hint, decide_eq_true_eq]
    omega
  have hpc : (s.placeNext w).pc.toNat = s.fetchOffset := hn
  simp only [State.fetchWord?, hf, if_true, hpc]
  exact fetch16_placeWord _ _ _ _ hle

/-- The next step of `withFetchWord` runs exactly the instruction the word decodes to. -/
theorem step_withFetchWord (s : State) (nbits w : Nat) (i : Instr)
    (h : decodeWord (tableWord nbits w) = .ok i) :
    step (s.withFetchWord nbits w) = exec i (s.withFetchWord nbits w) := by
  refine step_of_fetchWord? rfl ?_ (s.fetchWord?_placeNext _) h
  show ((placeWord _ _ _).take Config.maxImageBytes).length ≤ _
  exact List.length_take_le _ _

/-- The decoder reads from a row's bits what the step's decoder reads from the same word. -/
theorem decodeTableWord_eq (nbits w : Nat) (i : Instr) :
    decodeTableWord nbits w = some i ↔ decodeWord (tableWord nbits w) = .ok i := by
  simp only [decodeTableWord, bytesOfWord, decodeBytes, wordOfBytes_bytesOfWord]
  cases decodeWord (tableWord nbits w) <;> simp

end Sys2Proof.Machine
end

