-- ==== Sys2Proof/Tests/Slice0.lean ====
section
/-! SUPPORT. The model's own tests. Expected results are taken from `95_test_vectors.md` or from the rule a test
names; the witnesses show that the hypotheses of each statement are met together. -/

namespace Sys2Proof.Tests

open Sys2Proof.Machine Sys2Proof.Stmt

/-- The state of an outcome, the fallback where there is none. -/
def stateOf (fallback : State) : Host.Outcome State Fault Refusal → State
  | .next t => t
  | .fault _ => fallback
  | .refused _ => fallback

/-- The state after the next step, with a word placed where it fetches. -/
def after (w : Nat) (s : State) : State := stateOf s (step (s.withFetchWord 16 w))

/-- The reset state. -/
def s0 : State := State.reset

/-- The reset state with an image of words. -/
def image (ws : List InstrWord) : State := State.boot (ws.flatMap bytesOfWord)

/-! ### WellFormed: each check refuses an ill-formed term (R95, R7) -/

theorem test_wf_accepts : (Instr.copy .C .D).wf = true ∧ (Instr.addr .C .C .L).wf = true := by decide
theorem test_wf_refuses_copy_to_C : (Instr.copy .D .C).wf = false := by decide
theorem test_wf_refuses_alu_to_C :
    (Instr.addr .D .D .C).wf = false ∧ (Instr.subr .D .D .C).wf = false ∧ (Instr.mulr .D .D .C).wf = false ∧
    (Instr.divr .D .D .C).wf = false ∧ (Instr.rmvr .D .D .C).wf = false ∧ (Instr.lmvr .D .D .C).wf = false ∧
    (Instr.andr .D .D .C).wf = false ∧ (Instr.or_r .D .D .C).wf = false := by decide
theorem test_imageOk_refuses_odd_length : imageOk [0x00] = false ∧ imageOk [0x00, 0x14] = true := by decide
theorem test_imageOk_refuses_too_long (im : List Byte) (h : im.length = 2147483648) : imageOk im = false := by
  simp [imageOk, h, Config.maxImageBytes, Config.instrBytes]
theorem image_of_length (n : Nat) : ∃ im : List Byte, im.length = n := ⟨List.replicate n 0, List.length_replicate⟩

/-! ### Decoding, words written from R84 to R91 (95_test_vectors.md 2.1) -/

theorem test_decode_inpv : decodeWord 0b000_111111111111_0#16 = .ok (.inpv 0xFFF false) := by decide
theorem test_decode_copy : decodeWord 0b001_101_110_0000000#16 = .ok (.copy .T .S) := by decide
theorem test_decode_copy_reserved : decodeWord 0b001_000_001_0000000#16 = .ok (.copy .D .C) := by decide
theorem test_decode_jump : decodeWord 0b010_011_101_0000000#16 = .ok (.jump .M .T) := by decide
theorem test_decode_comp : decodeWord 0b011_000_111_000_0000#16 = .ok (.comp .D .aw .D) := by decide
theorem test_decode_addr : decodeWord 0b100_000_011_100_011_0#16 = .ok (.addr .M .V .M) := by decide
theorem test_decode_subr : decodeWord 0b100_001_110_100_110_0#16 = .ok (.subr .S .V .S) := by decide
theorem test_decode_mulr : decodeWord 0b100_010_100_100_101_0#16 = .ok (.mulr .V .V .T) := by decide
theorem test_decode_divr : decodeWord 0b100_011_101_100_000_0#16 = .ok (.divr .T .V .D) := by decide
theorem test_decode_rmvr : decodeWord 0b100_100_111_100_111_0#16 = .ok (.rmvr .L .V .L) := by decide
theorem test_decode_lmvr : decodeWord 0b100_101_111_100_101_0#16 = .ok (.lmvr .L .V .T) := by decide
theorem test_decode_andr : decodeWord 0b100_110_000_100_010_0#16 = .ok (.andr .D .V .A) := by decide
theorem test_decode_or_r : decodeWord 0b100_111_111_111_111_0#16 = .ok (.or_r .L .L .L) := by decide
theorem test_decode_exti : decodeWord 0b101_011111111111_1#16 = .ok (.exti 0x7FF true) := by decide
theorem test_decode_sett : decodeWord 0b110_111_0000000000#16 = .ok (.sett 7) := by decide
theorem test_decode_illegal : decodeWord 0xFFFF = .error .illegalOpcode := by decide
theorem test_decode_pad_ignored :
    decodeWord 0x307F = .ok (.copy .V .D) ∧ decodeWord 0x8041 = .ok (.addr .D .V .D) ∧
    decodeWord 0xCFFF = .ok (.sett 3) ∧ decodeWord 0x638F = .ok (.comp .D .aw .D) := by decide
theorem test_decodeBytes_truncated : decodeBytes [0x30] = .error .truncated := by decide
theorem test_decodeProgram_offset :
    decodeProgram [0x00, 0x0A, 0xE0, 0x00] = .error (.illegalOpcode, 2) := by decide
theorem test_decodeTableWord : decodeTableWord 16 0x78C0 = some (.comp .S .gt .V) := by decide
theorem test_encode_words :
    encode (.divr .T .V .D) = 0x8EC0 ∧ encode (.exti 0x7FF false) = 0xAFFE ∧ encode (.sett 3) = 0xCC00 := by
  decide

/-! ### One step (95_test_vectors.md 2.2 to 2.8) -/

theorem test_inpv_10 : (after 0x0014 s0).V = 10 ∧ (after 0x0014 s0).pc = 2 := by decide
theorem test_inpv_appends_while_pending : (after 0x0014 { s0 with PEND := [1] }).V = 4106 := by decide
theorem test_exti_finalises : (after 0xAFFE { s0 with PEND := [0] }).V = 2047 := by decide
theorem test_exti_long_chain_wraps :
    (after 0xBFFE { s0 with PEND := [0, 0xFFF, 0xFFF] }).V.toInt = -1 := by decide
theorem test_copy_store_at_negative_address :
    (after 0x3180 { s0 with A := -1, V := -1 }).DMEM = [(4294967295, 0xFFFFFFFF)] := by decide
theorem test_copy_M_to_A_reads_old_A : (after 0x2D00 { s0 with A := 5, DMEM := [(5, 99)] }).A = 99 := by decide
theorem test_jump_any_nonzero_flag :
    (after 0x5080 { s0 with C := -5, V := 6, pc := 4 }).pc = 6 := by decide
theorem test_jump_through_M_and_T :
    (after 0x4E80 { s0 with A := 9, DMEM := [(9, 2)], BANK := 1, SCR := #v[0, 1, 0, 0, 0, 0, 0, 0] }).pc = 2 := by
  decide
theorem test_comp_is_signed : (after 0x7A40 { s0 with S := 1, V := -1 }).C = 0 := by decide
theorem test_comp_reads_old_flag : (after 0x6510 { s0 with C := 0 }).C = 1 := by decide
theorem test_addr_wraps :
    (after 0x8040 { s0 with D := 2147483647, V := 1 }).D.toInt = -2147483648 := by decide
theorem test_addr_memory_read_modify_write :
    (after 0x81C6 { s0 with A := 4, DMEM := [(4, 6)], V := 1 }).DMEM = [(4, 7)] := by decide
theorem test_subr_order : (after 0x874C { s0 with S := 5, V := 7 }).S.toInt = -2 := by decide
theorem test_subr_wraps : (after 0x8440 { s0 with V := 0x80000000 }).D.toInt = -2147483648 := by decide
theorem test_mulr_wraps :
    (after 0x8A4A { s0 with V := 100000, BANK := 5 }).SCR = #v[0, 0, 0, 0, 0, 1410065408, 0, 0] := by decide
theorem test_mulr_low_half : (after 0x8840 { s0 with D := 46341, V := 46341 }).D.toInt = -2147479015 := by decide
theorem test_divr_truncates : (after 0x8F4C { s0 with S := -7, V := 2 }).S.toInt = -3 := by decide
theorem test_divr_overflow_wraps :
    (after 0x8C40 { s0 with D := 0x80000000, V := -1 }).D.toInt = -2147483648 := by decide
theorem test_rmvr_is_logical : (after 0x93CE { s0 with L := -8, V := 1 }).L.toInt = 2147483644 := by decide
theorem test_rmvr_huge_count : (after 0x93CE { s0 with L := 5, V := -1 }).L = 0 := by decide
theorem test_lmvr_into_sign : (after 0x9440 { s0 with D := 3, V := 30 }).D.toInt = -1073741824 := by decide
theorem test_lmvr_count_32 : (after 0x9440 { s0 with D := 1, V := 32 }).D = 0 := by decide
theorem test_andr_negatives : (after 0x9840 { s0 with D := -2, V := -3 }).D.toInt = -4 := by decide
theorem test_or_r_negatives : (after 0x9C40 { s0 with D := -4, V := 1 }).D.toInt = -3 := by decide
theorem test_sett_keeps_entries : (after 0xCC00 s0).BANK = 3 ∧ (after 0xCC00 s0).SCR = s0.SCR := by decide
theorem test_write_of_zero_is_unlisted : DMem.write [(3, 1), (4, 6)] 4 0 = [(3, 1)] := by decide
theorem test_halt_at_once : (stateOf s0 (step s0)).STATUS = .halted := by decide
theorem test_decode_error :
    (after 0xE000 { s0 with pc := 2 }).STATUS = .faulted .decodeError 2 (some 0xE000) := by decide
theorem test_reserved_operand_records_pad_bits :
    (after 0x20FF s0).STATUS = .faulted .reservedOperand 0 (some 0x20FF) ∧ (after 0x20FF s0).pc = 0 := by decide
theorem test_fetch_fault_negative :
    (stateOf s0 (step { image [0x6380] with pc := -2 })).STATUS = .faulted .fetchFault (-2) none := by decide
theorem test_fetch_fault_odd_image :
    (stateOf s0 (step { s0 with IMEM := [0x00] })).STATUS = .faulted .fetchFault 0 none := by decide
theorem test_ports_of_a_fault :
    (after 0xE000 s0).ports.fcause = some 1 ∧ (after 0xE000 s0).ports.faulted = true := by decide
theorem test_accesses_of_read_modify_write :
    dataAccesses (.addr .M .V .M) { s0 with A := 4, DMEM := [(4, 6)], V := 1 } =
      [⟨4, false, 6⟩, ⟨4, true, 7⟩] := by decide

/-! ### The Encoder's chains (R147, R149) -/

theorem test_literal_2047 : literalInstrs 2047 = [.inpv 0 true, .exti 0x7FF false] := by decide
theorem test_literal_8388607_needs_three_words :
    (literalInstrs 8388607).map encode = [0x0001, 0xAFFF, 0xBFFE] := by decide

/-! ### The words of all fourteen rows run right after reset -/

theorem test_rows_decode :
    [0x0000, 0x2000, 0x4000, 0x6000, 0x8000, 0x8400, 0x8800, 0x8C00, 0x9000, 0x9400, 0x9800, 0x9C00, 0xA000,
      0xC000].all (fun w => (decodeTableWord 16 w).isSome) = true := by decide
theorem test_withFetchWord_runs :
    (stateOf s0 (step (s0.withFetchWord 16 0xDC00))).BANK = 7 := by decide

/-! ### Witnesses: the hypotheses of each statement are met together -/

theorem fetches_intro {s : State} {p : Nat} {hi lo : Byte} (hs : s.STATUS = .running)
    (hl : s.IMEM.length ≤ 2147483646) (hp : s.pc.toInt = (p : Int)) (he : p % 2 = 0)
    (h1 : s.IMEM[p]? = some hi) (h2 : s.IMEM[p + 1]? = some lo) (w : InstrWord)
    (hw : w.toNat = hi.toNat * 256 + lo.toNat) : Fetches s w :=
  ⟨hs, hl, p, hi, lo, hp, he, h1, h2, hw⟩

theorem witness_StepRunsTheDecodedInstruction :
    Fetches (image [0x3000]) 0x3000 ∧ decodeWord 0x3000 = .ok (.copy .V .D) :=
  ⟨fetches_intro (p := 0) (hi := 0x30) (lo := 0x00) rfl (by decide) (by decide) rfl rfl rfl _ (by decide), by decide⟩
theorem witness_StepRunsTheDecodedInstruction_last_word :
    Fetches { image [0x0000, 0xDC00] with pc := 2 } 0xDC00 ∧ decodeWord 0xDC00 = .ok (.sett 7) :=
  ⟨fetches_intro (p := 2) (hi := 0xDC) (lo := 0x00) rfl (by decide) (by decide) rfl rfl rfl _ (by decide), by decide⟩
/-- The advance that ends at `LEN`. -/
theorem witness_SequentialAdvanceNeverWraps :
    Fetches { image [0x0000, 0xDC00] with pc := 2 } 0xDC00 ∧ decodeWord 0xDC00 = .ok (.sett 7) ∧
      (Instr.sett 7).dst? ≠ some .C ∧ ∀ target flag, Instr.sett 7 = .jump target flag →
        ({ image [0x0000, 0xDC00] with pc := 2 } : State).readReg flag = 0 :=
  ⟨witness_StepRunsTheDecodedInstruction_last_word.1, by decide, by decide, fun _ _ h => by cases h⟩
/-- A Jump that is not taken. -/
theorem witness_SequentialAdvanceNeverWraps_jump :
    Fetches (image [0x5080]) 0x5080 ∧ decodeWord 0x5080 = .ok (.jump .V .C) ∧
      (Instr.jump .V .C).dst? ≠ some .C ∧ ∀ target flag, Instr.jump .V .C = .jump target flag →
        (image [0x5080]).readReg flag = 0 :=
  ⟨fetches_intro (p := 0) (hi := 0x50) (lo := 0x80) rfl (by decide) (by decide) rfl rfl rfl _ (by decide),
    by decide, by decide, fun _ _ h => by cases h; decide⟩
theorem witness_HaltExactlyAtTheEndOfTheImage :
    ∃ s t : State, s.STATUS = .running ∧ s.IMEM.length = 2 ∧ s.pc.toInt = (s.IMEM.length : Int) ∧
      step s = .next t ∧ t.STATUS = .halted :=
  ⟨{ image [0x3000] with pc := 2 }, _, rfl, rfl, by decide, rfl, rfl⟩
theorem witness_FetchFaultExactlyAtInvalidOffsets :
    ∃ s : State, s.STATUS = .running ∧ s.IMEM.length ≤ 2147483646 ∧ s.pc.toInt ≠ (s.IMEM.length : Int) ∧
      ¬ (s.pc.toInt % 2 = 0 ∧ 0 ≤ s.pc.toInt ∧ s.pc.toInt + 2 ≤ (s.IMEM.length : Int)) :=
  ⟨{ image [0x3000] with pc := 1 }, rfl, by decide, by decide, by decide⟩
theorem witness_DecodeErrorExactlyOnOpcodeSeven :
    Fetches (image [0xE000]) 0xE000 ∧ (0xE000 : InstrWord).toNat / 8192 = 7 :=
  ⟨fetches_intro (p := 0) (hi := 0xE0) (lo := 0x00) rfl (by decide) (by decide) rfl rfl rfl _ (by decide), by decide⟩
theorem witness_DecodeErrorExactlyOnOpcodeSeven_below :
    Fetches (image [0xDFFF]) 0xDFFF ∧ (0xDFFF : InstrWord).toNat / 8192 ≠ 7 :=
  ⟨fetches_intro (p := 0) (hi := 0xDF) (lo := 0xFF) rfl (by decide) (by decide) rfl rfl rfl _ (by decide), by decide⟩
theorem witness_ReservedDestinationFaults :
    Fetches (image [0x20FF]) 0x20FF ∧ decodeWord 0x20FF = .ok (.copy .D .C) ∧
      (Instr.copy .D .C).dst? = some .C ∧ (Instr.copy .D .D).dst? ≠ some .C :=
  ⟨fetches_intro (p := 0) (hi := 0x20) (lo := 0xFF) rfl (by decide) (by decide) rfl rfl rfl _ (by decide),
    by decide, by decide, by decide⟩
theorem witness_StoppedStatesAbsorb :
    ({ s0 with STATUS := .halted } : State).STATUS ≠ .running ∧
      ({ s0 with STATUS := .faulted .fetchFault 0 none } : State).STATUS ≠ .running := by decide
theorem witness_StepAnswersOnEveryAllowedImage :
    s0.IMEM.length ≤ 2147483646 ∧
      ∃ s : State, s.STATUS = .running ∧ 2147483646 < s.IMEM.length :=
  have ⟨im, h⟩ := image_of_length 2147483647
  ⟨by decide, { s0 with IMEM := im }, rfl, h ▸ by decide⟩
theorem witness_FaultsArePrecise_decodeError :
    ∃ s t : State, s.STATUS = .running ∧ step s = .next t ∧ t.STATUS = .faulted .decodeError 0 (some 0xE000) :=
  ⟨image [0xE000], _, rfl, rfl, by decide⟩
theorem witness_FaultsArePrecise_fetchFault :
    ∃ s t : State, s.STATUS = .running ∧ step s = .next t ∧ t.STATUS = .faulted .fetchFault 3 none :=
  ⟨{ s0 with pc := 3 }, _, rfl, rfl, by decide⟩
theorem witness_FaultsArePrecise_reservedOperand :
    ∃ s t : State, s.STATUS = .running ∧ step s = .next t ∧
      t.STATUS = .faulted .reservedOperand 0 (some 0x8002) :=
  ⟨image [0x8002], _, rfl, rfl, by decide⟩
theorem witness_PcUpdateAndPcIsNotReadAsData :
    (Instr.jump .V .C).dst? ≠ some .C ∧ (Instr.addr .D .V .T).dst? ≠ some .C := by decide
theorem witness_OperandWriteByRole :
    (∃ t, (Instr.addr .D .V .M).dst? = some .M ∧ exec (.addr .D .V .M) s0 = .next t) ∧
    (∃ t, (Instr.copy .D .C).dst? = some .C ∧ exec (.copy .D .C) s0 = .next t) ∧
    (∃ t, exec (.inpv 5 false) s0 = .next t) ∧ (∃ t, exec (.exti 5 true) s0 = .next t) ∧
    (∃ t, exec (.comp .D .aw .D) s0 = .next t) ∧ (∃ t, exec (.sett 7) s0 = .next t) ∧
    ∃ t, exec (.jump .V .C) s0 = .next t :=
  ⟨⟨_, rfl, rfl⟩, ⟨_, rfl, rfl⟩, ⟨_, rfl⟩, ⟨_, rfl⟩, ⟨_, rfl⟩, ⟨_, rfl⟩, ⟨_, rfl⟩⟩
theorem witness_NormalisationIsWrap32 :
    (-2147483648 : Int) ≤ -2147483648 ∧ (2147483647 : Int) ≤ 2147483647 := by decide
/-- Of AddSubtractMultiplyWrap, DivideTruncatesTowardZero, ShiftsActOnThePatternByTheFullCount,
AndOrActBitByBit and CopyMovesTheOperand. -/
theorem witness_destination_other_than_C :
    Reg.D ≠ Reg.C ∧ Reg.M ≠ Reg.C ∧ Reg.T ≠ Reg.C ∧ 32 ≤ (32 : Word).toNat := by decide
theorem witness_DivisionByZeroYieldsZeroAndGoesOn :
    Reg.D ≠ Reg.C ∧ ({ s0 with D := 5 } : State).readReg .V = 0 := by decide
theorem witness_StoreThenLoadReturnsTheValue : (0 : Nat) ≠ ({ s0 with A := 4 } : State).dataAddr ∧ Reg.A ≠ Reg.C := by
  decide
theorem witness_JumpIsTakenOnAnyNonzeroFlag :
    (({ s0 with C := -1 } : State).readReg .C).toInt ≠ 0 ∧ (s0.readReg .C).toInt = 0 := by decide
theorem witness_CompareWritesTheMaskedCondition :
    CmpCode.le.code = ~~~ CmpCode.gt.code ∧ (∃ t, exec (.comp .D .gt .S) s0 = .next t) ∧
      ∃ t, exec (.comp .D .le .S) s0 = .next t :=
  ⟨by decide, ⟨_, rfl⟩, ⟨_, rfl⟩⟩
/-- Of ImmediateStepAccumulatesOrFinalises, ChainLoadsItsWholeString and EncodedLiteralLoadsItsValue. -/
theorem witness_nothing_pending : s0.PEND = [] ∧ 1 ≤ ([0x001, 0xFFF] : List Chunk).length := by decide
theorem witness_EncoderEmitsDirectFormExactlyInRange :
    ((-2048 : Int) ≤ -2048 ∧ (2046 : Int) ≤ 2046) ∧ ¬ ((-2048 : Int) ≤ 2047 ∧ (2047 : Int) ≤ 2046) ∧
      ¬ ((-2048 : Int) ≤ -2049 ∧ (-2049 : Int) ≤ 2046) ∧ (1 ≤ 2 ∧ fitsChunks 2047 2) := by
  refine ⟨by decide, by decide, by decide, by decide, ?_⟩
  unfold fitsChunks
  decide
/-- Of FrameOfRegistersAndScratch and FrameOfMemoryAndControlState: an instruction, and a next state. -/
theorem witness_frames :
    (∃ t, exec (.addr .D .V .T) s0 = .next t) ∧ (∃ t, exec (.copy .D .M) s0 = .next t) ∧
      ∃ t, exec (.copy .D .C) s0 = .next t :=
  ⟨⟨_, rfl⟩, ⟨_, rfl⟩, ⟨_, rfl⟩⟩
theorem witness_UnselectedScratchEntriesAreInvisible :
    ∃ (s t : State) (scr : Vector Word 8), scr[s.BANK] = s.SCR[s.BANK] ∧ scr ≠ s.SCR ∧
      exec (.copy .T .D) s = .next t :=
  ⟨s0, _, #v[0, 1, 2, 3, 4, 5, 6, 7], by decide, by decide, rfl⟩
theorem witness_DataAccessesAreBoundedAndExact :
    ∃ t, exec (.addr .M .M .M) { s0 with A := 4, DMEM := [(4, 6)] } = .next t ∧
      (dataAccesses (.addr .M .M .M) { s0 with A := 4, DMEM := [(4, 6)] }).length = 3 :=
  ⟨_, rfl, by decide⟩
theorem witness_InstructionPortIsEvenAndInsideTheImage : (image [0x3000]).ports.iaddr = some 0 := by decide
theorem witness_MemoriesThatReadAlikeAreEqual :
    DMem.wf [(0, 1), (4294967295, 2)] = true ∧ ∀ a, DMem.read [(0, 1), (4294967295, 2)] a =
      DMem.read [(0, 1), (4294967295, 2)] a :=
  ⟨by decide, fun _ => rfl⟩
theorem witness_EveryStepKeepsTheInvariant : ∃ s t : State, s.Inv ∧ step s = .next t :=
  ⟨{ image [0x3180] with A := 4, V := 5, C := 1, DMEM := [(3, 9)] }, _, ⟨by decide, by decide, trivial⟩, rfl⟩
theorem witness_EveryStepKeepsTheInvariant_faulted : ∃ s t : State, s.Inv ∧ step s = .next t ∧ s.STATUS ≠ .running :=
  ⟨{ s0 with pc := 3, STATUS := .faulted .fetchFault 3 none }, _,
    ⟨by decide, by decide, rfl, rfl, by decide, by decide⟩, rfl, by decide⟩
theorem witness_PadBitsAreIgnored : decodeWord 0x307F = .ok (.copy .V .D) := by decide
theorem witness_CoreExecutesTheEncodedProgram :
    ∃ (p : List Instr) (s : State), s.STATUS = .running ∧ s.IMEM = encodeProgram p ∧
      2 * p.length ≤ 2147483646 ∧ p[1]? = some (.sett 7) ∧ s.pc.toInt = 2 * ((1 : Nat) : Int) :=
  ⟨[.inpv 1 false, .sett 7], { s0 with IMEM := encodeProgram [.inpv 1 false, .sett 7], pc := 2 },
    rfl, rfl, by decide, rfl, by decide⟩
theorem witness_CoreExecutesTheEncodedProgram_end :
    ∃ (p : List Instr) (s : State), s.STATUS = .running ∧ s.IMEM = encodeProgram p ∧
      2 * p.length ≤ 2147483646 ∧ s.pc.toInt = 2 * (p.length : Int) :=
  ⟨[.sett 7], { s0 with IMEM := encodeProgram [.sett 7], pc := 2 }, rfl, rfl, by decide, by decide⟩

end Sys2Proof.Tests
end

section
/-! PROOF. Normalisation (`00_scope.md` R10): `wrap32` is the library's balanced remainder `Int.bmod` by 2^32,
so a word built from an integer has the integer's pattern and reads back as its normalisation. -/

namespace Sys2Proof.Machine

/-! ### wrap32 -/

/-- Ties the model's closed form to the library's balanced remainder. -/
theorem wrap32_eq_bmod (x : Int) : wrap32 x = x.bmod (2 ^ 32) := by
  unfold wrap32
  rw [Int.bmod_eq_emod]
  split <;> omega

theorem wrap32_closed_form (x : Int) : wrap32 x = ((x + 2147483648) % 4294967296) - 2147483648 := rfl

/-- The multiple is the negated quotient of the closed form's shifted argument. -/
theorem exists_wrap32_eq_add_mul (x : Int) : ∃ k : Int, wrap32 x = x + k * 4294967296 := by
  refine ⟨-((x + 2147483648) / 4294967296), ?_⟩
  rw [wrap32_closed_form]
  omega

theorem le_wrap32 (x : Int) : -2147483648 ≤ wrap32 x := by
  rw [wrap32_closed_form]
  omega

theorem wrap32_le (x : Int) : wrap32 x ≤ 2147483647 := by
  rw [wrap32_closed_form]
  omega

theorem wrap32_eq_self {x : Int} (hlo : -2147483648 ≤ x) (hhi : x ≤ 2147483647) : wrap32 x = x := by
  rw [wrap32_closed_form]
  omega

theorem wrap32_emod (x : Int) : wrap32 x % 4294967296 = x % 4294967296 := by
  obtain ⟨k, hk⟩ := exists_wrap32_eq_add_mul x
  rw [hk, Int.add_mul_emod_self_right]

/-! ### ofVal -/

/-- The truncation in `BitVec.ofInt` makes the normalisation before it redundant. -/
theorem ofVal_eq_ofInt (x : Int) : ofVal x = BitVec.ofInt 32 x := by
  apply BitVec.eq_of_toInt_eq
  rw [ofVal, wrap32_eq_bmod, BitVec.toInt_ofInt, BitVec.toInt_ofInt, Int.bmod_bmod]

@[simp] theorem toInt_ofVal (x : Int) : (ofVal x).toInt = wrap32 x := by
  rw [ofVal_eq_ofInt, BitVec.toInt_ofInt, wrap32_eq_bmod]

theorem toNat_ofVal (x : Int) : ((ofVal x).toNat : Int) = x % 4294967296 := by
  rw [ofVal_eq_ofInt, BitVec.toNat_ofInt]
  exact Int.toNat_of_nonneg (Int.emod_nonneg x (by decide))

/-- Settles O13: the closed form gives the range, the congruence and the identity on values; the two
readings of a built word come from `BitVec.ofInt`. -/
theorem normalisationIsWrap32 : Obligations.NormalisationIsWrap32 := fun x =>
  ⟨wrap32_closed_form x, exists_wrap32_eq_add_mul x, le_wrap32 x, wrap32_le x, wrap32_eq_self, wrap32_emod x,
    toInt_ofVal x, toNat_ofVal x⟩

end Sys2Proof.Machine
end

section
/-! SUPPORT. The execute phase seen from outside (`40_pipeline.md` R124, R126): every instruction answers a
next state, what becomes of `STATUS`, and that an instruction's data does not depend on `pc`. -/

namespace Sys2Proof.Machine

open Sys2Proof.Stmt

/-! ### The meanings as next states -/

theorem exec_inpv (k : Chunk) (c : Bool) (s : State) : exec (.inpv k c) s = .next (s.immStep k c) := rfl

theorem exec_exti (k : Chunk) (c : Bool) (s : State) : exec (.exti k c) s = .next (s.immStep k c) := rfl

theorem exec_comp (lhs : Reg) (code : CmpCode) (rhs : Reg) (s : State) : exec (.comp lhs code rhs) s =
    .next (s.setFlag (condHolds code (s.readReg lhs).toInt (s.readReg rhs).toInt)).advance := rfl

theorem exec_sett (k : BankIndex) (s : State) : exec (.sett k) s = .next { s with BANK := k }.advance := rfl

/-- A Jump, taken or not, is one write of `pc` (R124, R170). -/
theorem exec_jump (target flag : Reg) (s : State) :
    exec (.jump target flag) s = .next (s.setPc (nextPc (.jump target flag) s)) :=
  congrArg Host.Outcome.next (apply_ite s.setPc _ _ _).symm

/-- A Copy or an AluOp with a destination it may write is one operand write and the advance of `pc`. -/
theorem exec_of_dst_ne_C {i : Instr} {dst : Reg} (s : State) (hd : i.dst? = some dst) (hne : dst ≠ .C) :
    exec i s = .next (s.writeReg dst (resultOf i s)).advance := by
  rw [exec_of_dst hd, State.writeBack_of_ne _ _ _ hne]

/-- No instruction stops the machine or is refused; the reserved form answers its faulted state. -/
theorem exec_completes (i : Instr) (s : State) : ∃ t, exec i s = .next t := by
  cases hd : i.dst? with
  | some dst =>
    rw [exec_of_dst hd]
    by_cases hC : dst = .C
    · exact ⟨_, hC ▸ s.writeBack_C _⟩
    · exact ⟨_, s.writeBack_of_ne dst _ hC⟩
  | none =>
    cases i with
    | inpv k c => exact ⟨_, exec_inpv k c s⟩
    | exti k c => exact ⟨_, exec_exti k c s⟩
    | jump target flag => exact ⟨_, exec_jump target flag s⟩
    | comp lhs code rhs => exact ⟨_, exec_comp lhs code rhs s⟩
    | sett k => exact ⟨_, exec_sett k s⟩
    | _ => cases hd

/-- An instruction keeps `STATUS` unless it is the reserved form, which faults (R234). -/
theorem exec_STATUS {i : Instr} {s t : State} (h : exec i s = .next t) :
    t.STATUS = s.STATUS ∨ t.STATUS = .faulted .reservedOperand s.pc s.fetchWord? := by
  rcases exec_cases h with ⟨-, rfl⟩ | ⟨dst, -, -, rfl⟩ | ⟨k, c, -, rfl⟩ | ⟨target, flag, rfl, -⟩ |
    ⟨lhs, code, rhs, -, rfl⟩ | ⟨k, -, rfl⟩
  · exact .inr (State.raise_STATUS ..)
  · exact .inl (by simp)
  · exact .inl (by simp)
  · cases (exec_jump target flag s).symm.trans h
    exact .inl (State.setPc_STATUS ..)
  · exact .inl (by simp)
  · exact .inl rfl

/-! ### Moving the `pc` under an operation -/

@[simp] theorem State.setPc_setPc (s : State) (p q : Word) : (s.setPc p).setPc q = s.setPc q := rfl

@[simp] theorem State.advance_setPc (s : State) (p : Word) : (s.setPc p).advance = s.setPc (p + 2) := rfl

/-- An operand read does not see `pc` (R125). -/
@[simp] theorem State.readReg_setPc (s : State) (p : Word) (r : Reg) : (s.setPc p).readReg r = s.readReg r := by
  cases r <;> rfl

/-- An operand write neither reads nor changes `pc` (R126). -/
@[simp] theorem State.writeReg_setPc (s : State) (p : Word) (r : Reg) (v : Word) :
    (s.setPc p).writeReg r v = (s.writeReg r v).setPc p := by
  cases r <;> rfl

@[simp] theorem State.immStep_setPc (s : State) (p : Word) (k : Chunk) (c : Bool) :
    (s.setPc p).immStep k c = (s.immStep k c).setPc (p + 2) := by
  cases c <;> rfl

/-- The value a Copy or an AluOp computes comes from its operands alone. -/
@[simp] theorem resultOf_setPc (i : Instr) (s : State) (p : Word) : resultOf i (s.setPc p) = resultOf i s := by
  cases i <;> simp [resultOf]

/-- Only a Jump has a say in the next `pc`. -/
theorem nextPc_of_dst {i : Instr} {dst : Reg} (s : State) (h : i.dst? = some dst) : nextPc i s = s.pc + 2 := by
  cases i with
  | jump target flag => cases h
  | _ => rfl

/-- The `pc` an instruction leaves is the one of R124. -/
theorem exec_pc {i : Instr} {s t : State} (hC : i.dst? ≠ some .C) (h : exec i s = .next t) :
    t.pc = nextPc i s := by
  rcases exec_cases h with ⟨hd, -⟩ | ⟨dst, hd, -, rfl⟩ | ⟨k, c, rfl | rfl, rfl⟩ | ⟨target, flag, rfl, -⟩ |
    ⟨lhs, code, rhs, rfl, rfl⟩ | ⟨k, rfl, rfl⟩
  · exact absurd hd hC
  · simp [nextPc_of_dst s hd]
  · exact State.immStep_pc ..
  · exact State.immStep_pc ..
  · cases (exec_jump target flag s).symm.trans h
    rfl
  · rfl
  · rfl

/-- Started at another `pc`, an instruction leaves the same state apart from `pc` (R124). -/
theorem exec_setPc {i : Instr} {s t : State} (p : Word) (hC : i.dst? ≠ some .C) (h : exec i s = .next t) :
    exec i (s.setPc p) = .next (t.setPc (nextPc i (s.setPc p))) := by
  rcases exec_cases h with ⟨hd, -⟩ | ⟨dst, hd, hne, rfl⟩ | ⟨k, c, rfl | rfl, rfl⟩ | ⟨target, flag, rfl, -⟩ |
    ⟨lhs, code, rhs, rfl, rfl⟩ | ⟨k, rfl, rfl⟩
  · exact absurd hd hC
  · rw [exec_of_dst_ne_C _ hd hne, nextPc_of_dst _ hd]
    simp [State.advance]
  · rw [exec_inpv, State.immStep_setPc]
    rfl
  · rw [exec_exti, State.immStep_setPc]
    rfl
  · cases (exec_jump target flag s).symm.trans h
    exact exec_jump target flag (s.setPc p)
  · rw [exec_comp, State.readReg_setPc, State.readReg_setPc]
    rfl
  · rfl

/-! ### Halting -/

/-- The halt check (R121). -/
theorem step_of_pc_eq_length {s : State} (hs : s.STATUS = .running) (hlen : s.IMEM.length ≤ Config.maxImageBytes)
    (hpc : s.pc.toInt = (s.IMEM.length : Int)) : step s = .next s.halt := by
  simp [step, hs, hpc, Nat.not_lt.2 hlen]

/-- A running core's step halts it at the halt check only: a fault leaves a faulted status, and an
instruction never writes `halted`. -/
theorem pc_eq_length_of_step_halts {s t : State} (hs : s.STATUS = .running) (h : step s = .next t)
    (ht : t.STATUS = .halted) : s.pc.toInt = (s.IMEM.length : Int) := by
  rcases step_cases h with ⟨hn, -⟩ | ⟨-, -, ⟨hpc, -⟩ | ⟨-, ⟨-, rfl⟩ | ⟨w, e, -, -, rfl⟩ | ⟨w, i, -, -, hi⟩⟩⟩
  · exact absurd hs hn
  · exact hpc
  · exact absurd ht (by simp)
  · exact absurd ht (by simp)
  · rcases exec_STATUS hi with hk | hf
    · simp [hk, hs] at ht
    · simp [hf] at ht

/-! ### What a next state changes -/

/-- Every word is the normalisation of the integer it reads as. -/
@[simp] theorem ofVal_toInt (x : Word) : ofVal x.toInt = x := by
  rw [ofVal_eq_ofInt, BitVec.ofInt_toInt]

/-- The locations of an immediate step (R142). -/
theorem State.immStep_frame (s : State) (k : Chunk) (c : Bool) : s.immStep k c =
    { s with V := (s.immStep k c).V, PEND := (s.immStep k c).PEND, pc := s.pc + 2 } := by
  cases c <;> rfl

end Sys2Proof.Machine
end

section
/-! PROOF. The step and the operand write (`40_pipeline.md` R121, R124, R126). -/

namespace Sys2Proof.Machine

/-- Settles O2: the halt check is the first thing a running step does, and nothing after it halts. -/
theorem haltExactlyAtTheEndOfTheImage : Obligations.HaltExactlyAtTheEndOfTheImage :=
  ⟨fun _ hs hlen hpc => step_of_pc_eq_length hs hlen hpc,
    step_of_pc_eq_length (s := State.reset) rfl (Nat.zero_le _) rfl,
    fun _ _ hs h ht => pc_eq_length_of_step_halts hs h ht⟩

/-- Settles O9: every instruction completes, and moving its `pc` commutes with everything else it does. -/
theorem pcUpdateAndPcIsNotReadAsData : Obligations.PcUpdateAndPcIsNotReadAsData := by
  intro i s p hC
  obtain ⟨t, ht⟩ := exec_completes i s
  exact ⟨t, ht, exec_pc hC ht, exec_setPc p hC ht⟩

/-- A Copy or an AluOp writes its destination by role, or faults and changes `STATUS` alone (R126, R234). -/
theorem exec_writes_dst {s t : State} {i : Instr} {dst : Reg} (hd : i.dst? = some dst) (h : exec i s = .next t) :
    (dst = .C ∧ t = { s with STATUS := t.STATUS }) ∨
      (dst ≠ .C ∧ ∃ v : Int, t = { s.writeReg dst (ofVal v) with pc := s.pc + 2 }) := by
  rw [exec_of_dst hd] at h
  rcases State.writeBack_cases h with ⟨rfl, rfl⟩ | ⟨hne, rfl⟩
  · exact .inl ⟨rfl, rfl⟩
  · refine .inr ⟨hne, (resultOf i s).toInt, ?_⟩
    rw [ofVal_toInt, State.advance, State.writeReg_pc]
    rfl

/-- Settles O12: the writes by role are the definition's cases; each meaning's next state shows the locations
it changes. -/
theorem operandWriteByRole : Obligations.OperandWriteByRole := by
  refine ⟨toInt_ofVal, fun s v => ⟨rfl, rfl, rfl, rfl, rfl, rfl, rfl⟩, fun s t i dst hd h => exec_writes_dst hd h,
    fun s t k c h => ?imm, fun s t lhs rhs code h => ?comp, fun s t k h => ?sett, fun s t target flag h => ?jump⟩
  case imm =>
    rw [exec_inpv, exec_exti, or_self] at h
    cases h
    exact s.immStep_frame k c
  case comp =>
    cases (exec_comp lhs code rhs s).symm.trans h
    rfl
  case sett =>
    cases (exec_sett k s).symm.trans h
    rfl
  case jump =>
    cases (exec_jump target flag s).symm.trans h
    rfl

end Sys2Proof.Machine
end

section
/-! PROOF. Division by zero (`60_exceptions.md` R235). -/

namespace Sys2Proof.Machine

/-- The quotient by 0 (R194). -/
@[simp] theorem aluDiv_zero (a : Word) : aluDiv a 0 = 0 := if_pos rfl

/-- An operand write leaves `pc` alone, so the advance after it starts from the old `pc` (R126). -/
theorem State.advance_writeReg (s : State) (r : Reg) (v : Word) :
    (s.writeReg r v).advance = { s.writeReg r v with pc := s.pc + 2 } := by
  rw [State.advance, State.writeReg_pc]
  rfl

/-- Settles O16: the value written is the quotient by 0, and an operand write touches neither `STATUS` nor `C`. -/
theorem divisionByZeroYieldsZeroAndGoesOn : Obligations.DivisionByZeroYieldsZeroAndGoesOn := by
  intro lhs rhs dst s hne hzero
  have hres : resultOf (.divr lhs rhs dst) s = 0 := by
    rw [resultOf, hzero, aluDiv_zero]
  refine ⟨?_, s.writeReg_STATUS dst 0, s.writeReg_C dst 0⟩
  rw [exec_of_dst_ne_C s rfl hne, hres, State.advance_writeReg]

end Sys2Proof.Machine
end

section
/-! SUPPORT. The decoder and the encoder as tables (`30_encoding.md` R83 to R98): the code tables are inverse to
one another, a field of a word is a number, and the fields of each format read back. -/

namespace Sys2Proof

/-! ### The code tables (R21, R90) -/

@[simp] theorem Reg.ofCode_code (r : Reg) : Reg.ofCode r.code = r := by cases r <;> rfl

@[simp] theorem CmpCode.ofCode_code (c : CmpCode) : CmpCode.ofCode c.code = c := by cases c <;> rfl

@[simp] theorem Reg.code_ofCode (b : BitVec 3) : (Reg.ofCode b).code = b := by
  revert b
  decide

@[simp] theorem CmpCode.code_ofCode (b : BitVec 3) : (CmpCode.ofCode b).code = b := by
  revert b
  decide

/-! ### Words and fields as numbers (R8) -/

/-- Appending shifts the upper part by the width of the lower one. -/
theorem toNat_append_eq_add {m n : Nat} (x : BitVec m) (y : BitVec n) :
    (x ++ y).toNat = x.toNat * 2 ^ n + y.toNat := by
  rw [BitVec.toNat_append, ← Nat.shiftLeft_add_eq_or_of_lt y.isLt, Nat.shiftLeft_eq]

/-- The field `w[hi:lo]` as a number. -/
theorem toNat_extractLsb_eq_mod {n : Nat} (w : BitVec n) (hi lo : Nat) :
    (w.extractLsb hi lo).toNat = w.toNat / 2 ^ lo % 2 ^ (hi - lo + 1) := by
  rw [BitVec.extractLsb_toNat, Nat.shiftRight_eq_div_pow]

/-! ### The fields of each format (R84 to R88) -/

theorem formatI_fields (op : BitVec 3) (k : Chunk) (c : Bool) :
    (formatI op k c).extractLsb 15 13 = op ∧ (formatI op k c).extractLsb 12 1 = k ∧
      (formatI op k c).getLsbD 0 = c := by
  have hc := c.toNat_le
  refine ⟨?_, ?_, ?_⟩
  · apply BitVec.eq_of_toNat_eq
    simp only [toNat_extractLsb_eq_mod, formatI, toNat_append_eq_add, BitVec.toNat_ofBool]
    omega
  · apply BitVec.eq_of_toNat_eq
    simp only [toNat_extractLsb_eq_mod, formatI, toNat_append_eq_add, BitVec.toNat_ofBool]
    omega
  · rw [formatI, BitVec.getLsbD_append]
    exact BitVec.getLsbD_ofBool c 0

theorem formatRR_fields (op : BitVec 3) (r1 r2 : Reg) :
    (formatRR op r1 r2).extractLsb 15 13 = op ∧ (formatRR op r1 r2).extractLsb 12 10 = r1.code ∧
      (formatRR op r1 r2).extractLsb 9 7 = r2.code := by
  refine ⟨?_, ?_, ?_⟩ <;>
  · apply BitVec.eq_of_toNat_eq
    simp only [toNat_extractLsb_eq_mod, formatRR, toNat_append_eq_add, BitVec.toNat_zero, BitVec.ofNat_eq_ofNat]
    omega

theorem formatCMP_fields (op : BitVec 3) (lhs : Reg) (code : CmpCode) (rhs : Reg) :
    (formatCMP op lhs code rhs).extractLsb 15 13 = op ∧
      (formatCMP op lhs code rhs).extractLsb 12 10 = lhs.code ∧
      (formatCMP op lhs code rhs).extractLsb 9 7 = code.code ∧
      (formatCMP op lhs code rhs).extractLsb 6 4 = rhs.code := by
  refine ⟨?_, ?_, ?_, ?_⟩ <;>
  · apply BitVec.eq_of_toNat_eq
    simp only [toNat_extractLsb_eq_mod, formatCMP, toNat_append_eq_add, BitVec.toNat_zero, BitVec.ofNat_eq_ofNat]
    omega

theorem formatALU_fields (op aop : BitVec 3) (lhs rhs dst : Reg) :
    (formatALU op aop lhs rhs dst).extractLsb 15 13 = op ∧
      (formatALU op aop lhs rhs dst).extractLsb 12 10 = aop ∧
      (formatALU op aop lhs rhs dst).extractLsb 9 7 = lhs.code ∧
      (formatALU op aop lhs rhs dst).extractLsb 6 4 = rhs.code ∧
      (formatALU op aop lhs rhs dst).extractLsb 3 1 = dst.code := by
  refine ⟨?_, ?_, ?_, ?_, ?_⟩ <;>
  · apply BitVec.eq_of_toNat_eq
    simp only [toNat_extractLsb_eq_mod, formatALU, toNat_append_eq_add, BitVec.toNat_zero, BitVec.ofNat_eq_ofNat]
    omega

theorem formatB_fields (op : BitVec 3) (index : BankIndex) :
    (formatB op index).extractLsb 15 13 = op ∧
      (formatB op index).extractLsb 12 10 = (BitVec.ofFin index : BitVec 3) := by
  refine ⟨?_, ?_⟩ <;>
  · apply BitVec.eq_of_toNat_eq
    simp only [toNat_extractLsb_eq_mod, formatB, toNat_append_eq_add, BitVec.toNat_zero, BitVec.ofNat_eq_ofNat]
    omega

/-! ### Decoding each format (R93) -/

theorem decodeWord_inpv (k : Chunk) (c : Bool) : decodeWord (formatI 0 k c) = .ok (.inpv k c) := by
  obtain ⟨hop, hk, hc⟩ := formatI_fields 0 k c
  rw [decodeWord, hop, hk, hc]
  rfl

theorem decodeWord_exti (k : Chunk) (c : Bool) : decodeWord (formatI 5 k c) = .ok (.exti k c) := by
  obtain ⟨hop, hk, hc⟩ := formatI_fields 5 k c
  rw [decodeWord, hop, hk, hc]
  rfl

theorem decodeWord_copy (src dst : Reg) : decodeWord (formatRR 1 src dst) = .ok (.copy src dst) := by
  obtain ⟨hop, hs, hd⟩ := formatRR_fields 1 src dst
  rw [decodeWord, hop, hs, hd, Reg.ofCode_code, Reg.ofCode_code]
  rfl

theorem decodeWord_jump (target flag : Reg) : decodeWord (formatRR 2 target flag) = .ok (.jump target flag) := by
  obtain ⟨hop, ht, hf⟩ := formatRR_fields 2 target flag
  rw [decodeWord, hop, ht, hf, Reg.ofCode_code, Reg.ofCode_code]
  rfl

theorem decodeWord_comp (lhs : Reg) (code : CmpCode) (rhs : Reg) :
    decodeWord (formatCMP 3 lhs code rhs) = .ok (.comp lhs code rhs) := by
  obtain ⟨hop, hl, hc, hr⟩ := formatCMP_fields 3 lhs code rhs
  rw [decodeWord, hop, hl, hc, hr, Reg.ofCode_code, Reg.ofCode_code, CmpCode.ofCode_code]
  rfl

theorem decodeWord_alu (aop : BitVec 3) (lhs rhs dst : Reg) :
    decodeWord (formatALU 4 aop lhs rhs dst) = .ok (aluOfCode aop lhs rhs dst) := by
  obtain ⟨hop, ha, hl, hr, hd⟩ := formatALU_fields 4 aop lhs rhs dst
  rw [decodeWord, hop, ha, hl, hr, hd, Reg.ofCode_code, Reg.ofCode_code, Reg.ofCode_code]
  rfl

theorem decodeWord_sett (k : BankIndex) : decodeWord (formatB 6 k) = .ok (.sett k) := by
  obtain ⟨hop, hk⟩ := formatB_fields 6 k
  rw [decodeWord, hop, hk]
  rfl

/-- Settles O40: each format's fields read back, and each code gives back the name it was made from. -/
theorem decodeOfEncodeIsTheInstruction : Obligations.DecodeOfEncodeIsTheInstruction := by
  intro i
  cases i with
  | inpv k c => exact decodeWord_inpv k c
  | copy src dst => exact decodeWord_copy src dst
  | jump target flag => exact decodeWord_jump target flag
  | comp lhs code rhs => exact decodeWord_comp lhs code rhs
  | addr lhs rhs dst => exact decodeWord_alu 0 lhs rhs dst
  | subr lhs rhs dst => exact decodeWord_alu 1 lhs rhs dst
  | mulr lhs rhs dst => exact decodeWord_alu 2 lhs rhs dst
  | divr lhs rhs dst => exact decodeWord_alu 3 lhs rhs dst
  | rmvr lhs rhs dst => exact decodeWord_alu 4 lhs rhs dst
  | lmvr lhs rhs dst => exact decodeWord_alu 5 lhs rhs dst
  | andr lhs rhs dst => exact decodeWord_alu 6 lhs rhs dst
  | or_r lhs rhs dst => exact decodeWord_alu 7 lhs rhs dst
  | exti k c => exact decodeWord_exti k c
  | sett k => exact decodeWord_sett k

end Sys2Proof
end

section
/-! PROOF. The decoder on every word (`30_encoding.md` R89, R93, R94, R98): what it answers by the opcode, the table
on numbers, and the pad bits. -/

namespace Sys2Proof

open Sys2Proof.Stmt

/-! ### The answer by the opcode -/

theorem bitVec_three_cases (b : BitVec 3) :
    b = 0#3 ∨ b = 1#3 ∨ b = 2#3 ∨ b = 3#3 ∨ b = 4#3 ∨ b = 5#3 ∨ b = 6#3 ∨ b = 7#3 := by
  revert b
  decide

/-- Everything the decoder can answer. -/
theorem decodeWord_cases (w : InstrWord) :
    (w.extractLsb 15 13 = 0#3 ∧ decodeWord w = .ok (.inpv (w.extractLsb 12 1) (w.getLsbD 0))) ∨
    (w.extractLsb 15 13 = 1#3 ∧
      decodeWord w = .ok (.copy (.ofCode (w.extractLsb 12 10)) (.ofCode (w.extractLsb 9 7)))) ∨
    (w.extractLsb 15 13 = 2#3 ∧
      decodeWord w = .ok (.jump (.ofCode (w.extractLsb 12 10)) (.ofCode (w.extractLsb 9 7)))) ∨
    (w.extractLsb 15 13 = 3#3 ∧ decodeWord w =
      .ok (.comp (.ofCode (w.extractLsb 12 10)) (.ofCode (w.extractLsb 9 7)) (.ofCode (w.extractLsb 6 4)))) ∨
    (w.extractLsb 15 13 = 4#3 ∧ decodeWord w =
      .ok (aluOfCode (w.extractLsb 12 10) (.ofCode (w.extractLsb 9 7)) (.ofCode (w.extractLsb 6 4))
        (.ofCode (w.extractLsb 3 1)))) ∨
    (w.extractLsb 15 13 = 5#3 ∧ decodeWord w = .ok (.exti (w.extractLsb 12 1) (w.getLsbD 0))) ∨
    (w.extractLsb 15 13 = 6#3 ∧ decodeWord w = .ok (.sett (w.extractLsb 12 10 : BitVec 3).toFin)) ∨
    (w.extractLsb 15 13 = 7#3 ∧ decodeWord w = .error .illegalOpcode) := by
  rcases bitVec_three_cases (w.extractLsb 15 13) with h | h | h | h | h | h | h | h <;>
    simp [decodeWord, h]

/-- The decoder rejects the words of opcode 7 and no other (R94). -/
theorem decodeWord_error_iff (w : InstrWord) (e : DecodeReject) :
    decodeWord w = .error e ↔ e = .illegalOpcode ∧ w.extractLsb 15 13 = 7#3 := by
  rcases decodeWord_cases w with ⟨h, hd⟩ | ⟨h, hd⟩ | ⟨h, hd⟩ | ⟨h, hd⟩ | ⟨h, hd⟩ | ⟨h, hd⟩ | ⟨h, hd⟩ | ⟨h, hd⟩ <;>
    simp [h, hd, eq_comm]

/-- The opcode of a word is its quotient by 2^13. -/
theorem opcode_eq_seven_iff (w : InstrWord) : w.extractLsb 15 13 = 7#3 ↔ w.toNat / 8192 = 7 := by
  rw [← BitVec.toNat_inj, toNat_extractLsb_eq_mod, BitVec.toNat_ofNat]
  omega

/-! ### The table on numbers -/

theorem fld_toNat (w : InstrWord) (hi lo : Nat) : fld w.toNat hi lo = (w.extractLsb hi lo).toNat :=
  (toNat_extractLsb_eq_mod w hi lo).symm

theorem regAt_toNat (b : BitVec 3) : regAt b.toNat = .ofCode b := by
  revert b
  decide

theorem cmpAt_toNat (b : BitVec 3) : cmpAt b.toNat = .ofCode b := by
  revert b
  decide

theorem aluAt_toNat (b : BitVec 3) (lhs rhs dst : Reg) : aluAt b.toNat lhs rhs dst = aluOfCode b lhs rhs dst := by
  rcases bitVec_three_cases b with rfl | rfl | rfl | rfl | rfl | rfl | rfl | rfl <;> rfl

theorem bankAt_toNat (b : BitVec 3) : Fin.ofNat 8 b.toNat = b.toFin := by
  revert b
  decide

/-- The continuation flag is the field `w[0:0]` (R84). -/
theorem flag_toNat (w : InstrWord) : decide (fld w.toNat 0 0 = 1) = w.getLsbD 0 := by
  simp [fld, BitVec.getLsbD, Nat.testBit_zero]

/-- The model's decoder is the decode function of R93 taken on numbers. -/
theorem decodeWord_eq_tableDecode (w : InstrWord) : decodeWord w = tableDecode w.toNat := by
  simp only [tableDecode, flag_toNat]
  simp only [fld_toNat, regAt_toNat, cmpAt_toNat, aluAt_toNat, bankAt_toNat, BitVec.ofNat_toNat, BitVec.setWidth_eq]
  rcases decodeWord_cases w with ⟨h, hd⟩ | ⟨h, hd⟩ | ⟨h, hd⟩ | ⟨h, hd⟩ | ⟨h, hd⟩ | ⟨h, hd⟩ | ⟨h, hd⟩ | ⟨h, hd⟩ <;>
    simp [h, hd]

/-! ### Pad bits (R89, R98) -/

/-- Clearing the low `n` bits of a word. -/
theorem toNat_and_allOnes_shiftLeft (w : InstrWord) (n : Nat) :
    (w &&& BitVec.allOnes 16 <<< n).toNat = w.toNat / 2 ^ n * 2 ^ n := by
  rw [← BitVec.shiftLeft_ushiftRight, BitVec.toNat_shiftLeft, BitVec.toNat_ushiftRight, Nat.shiftRight_eq_div_pow,
    Nat.shiftLeft_eq]
  exact Nat.mod_eq_of_lt ((Nat.div_mul_le_self _ _).trans_lt w.isLt)

theorem formatI_of_fields {w : InstrWord} {op : BitVec 3} (hop : w.extractLsb 15 13 = op) :
    formatI op (w.extractLsb 12 1) (w.getLsbD 0) = w &&& 0xFFFF := by
  have hbit : (w.getLsbD 0).toNat = _ := Nat.toNat_testBit w.toNat 0
  have hmask : (w &&& 0xFFFF#16).toNat = _ := toNat_and_allOnes_shiftLeft w 0
  subst hop
  apply BitVec.eq_of_toNat_eq
  simp only [formatI, toNat_append_eq_add, toNat_extractLsb_eq_mod, BitVec.toNat_ofBool, hbit,
    BitVec.ofNat_eq_ofNat, hmask]
  omega

theorem formatRR_of_fields {w : InstrWord} {op : BitVec 3} (hop : w.extractLsb 15 13 = op) :
    formatRR op (.ofCode (w.extractLsb 12 10)) (.ofCode (w.extractLsb 9 7)) = w &&& 0xFF80 := by
  have hmask : (w &&& 0xFF80#16).toNat = _ := toNat_and_allOnes_shiftLeft w 7
  subst hop
  apply BitVec.eq_of_toNat_eq
  simp only [formatRR, toNat_append_eq_add, toNat_extractLsb_eq_mod, Reg.code_ofCode, BitVec.toNat_zero,
    BitVec.ofNat_eq_ofNat, hmask]
  omega

theorem formatCMP_of_fields {w : InstrWord} {op : BitVec 3} (hop : w.extractLsb 15 13 = op) :
    formatCMP op (.ofCode (w.extractLsb 12 10)) (.ofCode (w.extractLsb 9 7))
      (.ofCode (w.extractLsb 6 4)) = w &&& 0xFFF0 := by
  have hmask : (w &&& 0xFFF0#16).toNat = _ := toNat_and_allOnes_shiftLeft w 4
  subst hop
  apply BitVec.eq_of_toNat_eq
  simp only [formatCMP, toNat_append_eq_add, toNat_extractLsb_eq_mod, Reg.code_ofCode, CmpCode.code_ofCode,
    BitVec.toNat_zero, BitVec.ofNat_eq_ofNat, hmask]
  omega

theorem formatALU_of_fields {w : InstrWord} {op : BitVec 3} (hop : w.extractLsb 15 13 = op) :
    formatALU op (w.extractLsb 12 10) (.ofCode (w.extractLsb 9 7)) (.ofCode (w.extractLsb 6 4))
      (.ofCode (w.extractLsb 3 1)) = w &&& 0xFFFE := by
  have hmask : (w &&& 0xFFFE#16).toNat = _ := toNat_and_allOnes_shiftLeft w 1
  subst hop
  apply BitVec.eq_of_toNat_eq
  simp only [formatALU, toNat_append_eq_add, toNat_extractLsb_eq_mod, Reg.code_ofCode, BitVec.toNat_zero,
    BitVec.ofNat_eq_ofNat, hmask]
  omega

theorem formatB_of_fields {w : InstrWord} {op : BitVec 3} (hop : w.extractLsb 15 13 = op) :
    formatB op (w.extractLsb 12 10 : BitVec 3).toFin = w &&& 0xFC00 := by
  have hmask : (w &&& 0xFC00#16).toNat = _ := toNat_and_allOnes_shiftLeft w 10
  subst hop
  apply BitVec.eq_of_toNat_eq
  simp only [formatB, toNat_append_eq_add, toNat_extractLsb_eq_mod, BitVec.ofFin_toFin, BitVec.toNat_zero,
    BitVec.ofNat_eq_ofNat, hmask]
  omega

/-- The canonical word and the mask of an AluOp do not depend on which one it is. -/
theorem encode_aluOfCode (aop : BitVec 3) (lhs rhs dst : Reg) :
    encode (aluOfCode aop lhs rhs dst) = formatALU 4 aop lhs rhs dst ∧
      fieldMask (aluOfCode aop lhs rhs dst) = 0xFFFE := by
  rcases bitVec_three_cases aop with rfl | rfl | rfl | rfl | rfl | rfl | rfl | rfl <;> exact ⟨rfl, rfl⟩

/-- The canonical word of a decoded word is the word with its pad bits cleared. -/
theorem encode_of_decodeWord {w : InstrWord} {i : Instr} (hi : decodeWord w = .ok i) :
    encode i = w &&& fieldMask i := by
  rcases decodeWord_cases w with ⟨h, hd⟩ | ⟨h, hd⟩ | ⟨h, hd⟩ | ⟨h, hd⟩ | ⟨h, hd⟩ | ⟨h, hd⟩ | ⟨h, hd⟩ | ⟨h, hd⟩ <;>
    cases hd.symm.trans hi
  · exact formatI_of_fields h
  · exact formatRR_of_fields h
  · exact formatRR_of_fields h
  · exact formatCMP_of_fields h
  · obtain ⟨henc, hmask⟩ := encode_aluOfCode (w.extractLsb 12 10) (.ofCode (w.extractLsb 9 7))
      (.ofCode (w.extractLsb 6 4)) (.ofCode (w.extractLsb 3 1))
    rw [henc, hmask]
    exact formatALU_of_fields h
  · exact formatI_of_fields h
  · exact formatB_of_fields h

/-- Settles O39: the decoder's answer by the opcode, read as numbers; opcode 7 is the words from 0xE000 up. -/
theorem decoderIsTheTableOnEveryWord : Obligations.DecoderIsTheTableOnEveryWord := by
  refine ⟨decodeWord_eq_tableDecode, fun w => ?_⟩
  simp only [decodeWord_error_iff, exists_eq_left, opcode_eq_seven_iff]
  have := w.isLt
  omega

/-- Settles O41: the second half is the first, since a canonical word decodes to its instruction. -/
theorem padBitsAreIgnored : Obligations.PadBitsAreIgnored := by
  intro w i hi
  have henc := encode_of_decodeWord hi
  exact ⟨henc, henc ▸ decodeOfEncodeIsTheInstruction i⟩

end Sys2Proof
end

section
/-! PROOF. Programs as bytes (`30_encoding.md` R98, R99; `20_memory.md` R54, R55). -/

namespace Sys2Proof

open Sys2Proof.Machine

/-- Decoding undoes encoding wherever the bytes begin. -/
theorem decodeProgramFrom_encodeProgram (p : List Instr) (offset : Nat) :
    decodeProgramFrom offset (encodeProgram p) = .ok p := by
  induction p generalizing offset with
  | nil => rfl
  | cons i is ih =>
    simp [encodeProgram, bytesOfWord, decodeProgramFrom, wordOfBytes_bytesOfWord, decodeOfEncodeIsTheInstruction i, ih]

/-- Settles O42, by induction on the program. -/
theorem decodeOfEncodedProgramIsTheProgram : Obligations.DecodeOfEncodedProgramIsTheProgram := fun p =>
  decodeProgramFrom_encodeProgram p 0

@[simp] theorem length_encodeProgram (p : List Instr) : (encodeProgram p).length = 2 * p.length := by
  induction p with
  | nil => rfl
  | cons i is ih =>
    simp only [encodeProgram, bytesOfWord, List.length_append, List.length_cons, List.length_nil, ih]
    omega

/-- The word at offset `2n` of a program's bytes is that of its instruction `n`. -/
theorem fetch16_encodeProgram {p : List Instr} {n : Nat} {i : Instr} (h : p[n]? = some i) :
    fetch16 (encodeProgram p) (2 * n) = some (encode i) := by
  induction p generalizing n with
  | nil => cases h
  | cons j js ih =>
    cases n with
    | zero =>
      cases h
      exact congrArg some (wordOfBytes_bytesOfWord _)
    | succ n => exact ih h

end Sys2Proof
end

section
/-! SUPPORT. The fetch and the branches of a step (`20_memory.md` R54 to R56, `40_pipeline.md` R120), and what an
instruction does to `STATUS`. -/

namespace Sys2Proof.Machine

open Sys2Proof.Stmt

/-! ### The fetch -/

/-- A value that is a natural number is its own pattern (R9). -/
theorem toNat_of_toInt_eq {x : Word} {n : Nat} (h : x.toInt = (n : Int)) : x.toNat = n := by
  rw [BitVec.toInt_eq_toNat_cond] at h
  have := x.isLt
  split at h <;> omega

theorem toNat_wordOfBytes (hi lo : Byte) : (wordOfBytes hi lo).toNat = hi.toNat * 256 + lo.toNat :=
  toNat_append_eq_add hi lo

theorem fetchable_iff (pc : Word) (len : Nat) :
    fetchable pc len = true ↔ pc.toInt % 2 = 0 ∧ 0 ≤ pc.toInt ∧ pc.toInt + 2 ≤ (len : Int) :=
  decide_eq_true_iff

theorem fetch16_eq_some_iff (image : List Byte) (p : Nat) (w : InstrWord) :
    fetch16 image p = some w ↔ ∃ hi lo, image[p]? = some hi ∧ image[p + 1]? = some lo ∧ wordOfBytes hi lo = w := by
  have h0 : image[p]? = (image.drop p)[0]? := by simp
  have h1 : image[p + 1]? = (image.drop p)[1]? := by simp
  rw [fetch16, h0, h1]
  rcases image.drop p with _ | ⟨hi, _ | ⟨lo, rest⟩⟩ <;> simp

theorem fetch16_eq_none_iff (image : List Byte) (p : Nat) : fetch16 image p = none ↔ image.length < p + 2 := by
  have hlen : (image.drop p).length = image.length - p := List.length_drop
  rw [fetch16]
  generalize image.drop p = rest at hlen ⊢
  rcases rest with _ | ⟨hi, _ | ⟨lo, rest⟩⟩ <;> simp only [List.length_cons, List.length_nil] at hlen
  · exact iff_of_true rfl (by omega)
  · exact iff_of_true rfl (by omega)
  · exact iff_of_false (Option.some_ne_none _) (by omega)

/-- Nothing is fetched exactly where `pc` is no valid fetch offset (R56). -/
theorem State.fetchWord?_eq_none_iff (s : State) :
    s.fetchWord? = none ↔ fetchable s.pc s.IMEM.length = false := by
  cases hf : fetchable s.pc s.IMEM.length with
  | false => simp [State.fetchWord?, hf]
  | true =>
    obtain ⟨-, hnonneg, hroom⟩ := (fetchable_iff _ _).1 hf
    have hnat := toNat_of_toInt_eq (Int.toNat_of_nonneg hnonneg).symm
    simp only [State.fetchWord?, hf, if_true, fetch16_eq_none_iff, reduceCtorEq, iff_false]
    omega

/-- The statements' `Fetches` is the model's own fetch on an allowed image. -/
theorem fetches_iff (s : State) (w : InstrWord) : Fetches s w ↔
    s.STATUS = .running ∧ s.IMEM.length ≤ Config.maxImageBytes ∧ s.fetchWord? = some w := by
  refine and_congr_right fun _ => and_congr_right fun _ => ⟨?_, fun h => ?_⟩
  · rintro ⟨p, hi, lo, hpc, heven, hhi, hlo, hw⟩
    have hroom : p + 1 < s.IMEM.length := (List.getElem?_eq_some_iff.1 hlo).1
    have hf : fetchable s.pc s.IMEM.length = true := (fetchable_iff _ _).2 (by omega)
    rw [State.fetchWord?, if_pos hf, toNat_of_toInt_eq hpc, fetch16_eq_some_iff]
    exact ⟨hi, lo, hhi, hlo, BitVec.eq_of_toNat_eq ((toNat_wordOfBytes hi lo).trans hw.symm)⟩
  · have hf := State.fetchable_of_fetchWord? h
    obtain ⟨heven, hnonneg, hroom⟩ := (fetchable_iff _ _).1 hf
    have hnat := toNat_of_toInt_eq (Int.toNat_of_nonneg hnonneg).symm
    rw [State.fetchWord?, if_pos hf, fetch16_eq_some_iff] at h
    obtain ⟨hi, lo, hhi, hlo, rfl⟩ := h
    exact ⟨s.pc.toNat, hi, lo, by omega, by omega, hhi, hlo, toNat_wordOfBytes hi lo⟩

/-! ### The branches of a step -/

theorem step_of_stopped {s : State} (hs : s.STATUS ≠ .running) : step s = .next s := by
  unfold step
  split
  · rfl
  · rfl
  · exact absurd ‹_› hs

theorem step_of_imageTooLong {s : State} (hs : s.STATUS = .running) (hlen : Config.maxImageBytes < s.IMEM.length) :
    step s = .fault .imageTooLong := by
  simp [step, hs, hlen]

theorem step_of_fetchWord?_none {s : State} (hs : s.STATUS = .running)
    (hlen : s.IMEM.length ≤ Config.maxImageBytes) (hpc : s.pc.toInt ≠ (s.IMEM.length : Int))
    (hw : s.fetchWord? = none) : step s = .next (s.raise .fetchFault none) := by
  simp [step, hs, hpc, hw, Nat.not_lt.2 hlen]

theorem step_of_decodeWord_error {s : State} {w : InstrWord} {e : DecodeReject} (hs : s.STATUS = .running)
    (hlen : s.IMEM.length ≤ Config.maxImageBytes) (hw : s.fetchWord? = some w) (hd : decodeWord w = .error e) :
    step s = .next (s.raise .decodeError (some w)) := by
  have hpc := pc_ne_length_of_fetchable (State.fetchable_of_fetchWord? hw)
  simp [step, hs, hpc, hw, hd, Nat.not_lt.2 hlen]

/-- A running core on an allowed image answers a next state: one case per branch of the step. -/
theorem step_answers {s : State} (hlen : s.IMEM.length ≤ Config.maxImageBytes) : ∃ t, step s = .next t := by
  by_cases hs : s.STATUS = .running
  · by_cases hpc : s.pc.toInt = (s.IMEM.length : Int)
    · exact ⟨_, step_of_pc_eq_length hs hlen hpc⟩
    · cases hw : s.fetchWord? with
      | none => exact ⟨_, step_of_fetchWord?_none hs hlen hpc hw⟩
      | some w =>
        cases hd : decodeWord w with
        | error e => exact ⟨_, step_of_decodeWord_error hs hlen hw hd⟩
        | ok i => exact step_of_fetchWord? hs hlen hw hd ▸ exec_completes i s
  · exact ⟨s, step_of_stopped hs⟩

/-! ### Instructions and `STATUS` -/

/-- The reserved form faults, with the word at `pc`, and does nothing else (R234). -/
theorem exec_of_dst_C {i : Instr} (s : State) (hd : i.dst? = some .C) :
    exec i s = .next (s.raise .reservedOperand s.fetchWord?) :=
  exec_of_dst hd

/-- Any other instruction keeps `STATUS`. -/
theorem exec_STATUS_of_dst_ne_C {i : Instr} {s t : State} (hd : i.dst? ≠ some .C) (h : exec i s = .next t) :
    t.STATUS = s.STATUS := by
  rcases exec_cases h with ⟨hC, -⟩ | ⟨dst, -, -, rfl⟩ | ⟨k, c, -, rfl⟩ | ⟨target, flag, rfl, -⟩ |
    ⟨lhs, code, rhs, -, rfl⟩ | ⟨k, -, rfl⟩
  · exact absurd hC hd
  · simp
  · simp
  · cases (exec_jump target flag s).symm.trans h
    simp
  · simp
  · simp

end Sys2Proof.Machine
end

section
/-! PROOF. The step: its branches, its faults and the encoded program (`40_pipeline.md` R120, R121, R124;
`60_exceptions.md` R230 to R234). -/

namespace Sys2Proof.Machine

open Sys2Proof.Stmt

/-- Settles O43: the word at `pc = 2n` is that of instruction `n`, and it decodes to it. -/
theorem coreExecutesTheEncodedProgram : Obligations.CoreExecutesTheEncodedProgram := by
  intro p s hs himage hbound
  have hlen : s.IMEM.length = 2 * p.length := himage ▸ length_encodeProgram p
  have hmax : s.IMEM.length ≤ Config.maxImageBytes := hlen ▸ hbound
  refine ⟨fun n i hi hpc => ?_, fun hpc => step_of_pc_eq_length hs hmax (by omega)⟩
  have hn : n < p.length := (List.getElem?_eq_some_iff.1 hi).1
  have hf : fetchable s.pc s.IMEM.length = true := (fetchable_iff _ _).2 (by omega)
  have hw : s.fetchWord? = some (encode i) := by
    rw [State.fetchWord?, if_pos hf, toNat_of_toInt_eq (n := 2 * n) (by omega), himage]
    exact fetch16_encodeProgram hi
  exact step_of_fetchWord? hs hmax hw (decodeOfEncodeIsTheInstruction i)

/-- Settles O1: the statement's fetch is the model's. -/
theorem stepRunsTheDecodedInstruction : Obligations.StepRunsTheDecodedInstruction := by
  intro s w i hf hd
  obtain ⟨hs, hlen, hw⟩ := (fetches_iff s w).1 hf
  exact step_of_fetchWord? hs hlen hw hd

/-- Settles O6: `STATUS` is the first thing a step looks at. -/
theorem stoppedStatesAbsorb : Obligations.StoppedStatesAbsorb := fun _ hs => step_of_stopped hs

/-- Settles O7: every branch on an allowed image answers, the instruction's included. -/
theorem stepAnswersOnEveryAllowedImage : Obligations.StepAnswersOnEveryAllowedImage :=
  ⟨fun _ hlen => step_answers hlen, fun _ hs hlen => step_of_imageTooLong hs hlen⟩

/-- Whatever faults, a running core's step changed `STATUS` alone, and what it records names the branch that
raised it: the fetch, the decoder, or the reserved form (any other instruction leaves the core running). -/
theorem step_faults_cases {s t : State} {cause : FaultCause} {fpc : Word} {fword : Option InstrWord}
    (hs : s.STATUS = .running) (h : step s = .next t) (ht : t.STATUS = .faulted cause fpc fword) :
    fpc = s.pc ∧ t = s.raise cause fword ∧
      ((cause = .fetchFault ∧ s.pc.toInt ≠ (s.IMEM.length : Int) ∧ s.fetchWord? = none) ∨
       (cause = .decodeError ∧ ∃ w e, s.fetchWord? = some w ∧ decodeWord w = .error e) ∨
       (cause = .reservedOperand ∧ ∃ w i, s.fetchWord? = some w ∧ decodeWord w = .ok i ∧ i.dst? = some .C)) := by
  rcases step_cases h with ⟨hn, -⟩ | ⟨-, -, ⟨-, rfl⟩ | ⟨hpc, ⟨hw, rfl⟩ | ⟨w, e, hw, hd, rfl⟩ | ⟨w, i, hw, hd, hi⟩⟩⟩
  · exact absurd hs hn
  · cases ht
  · cases ht
    exact ⟨rfl, rfl, .inl ⟨rfl, hpc, hw⟩⟩
  · cases ht
    exact ⟨rfl, rfl, .inr (.inl ⟨rfl, w, e, hw, hd⟩)⟩
  · by_cases hC : i.dst? = some .C
    · cases (exec_of_dst_C s hC).symm.trans hi
      cases ht
      exact ⟨rfl, rfl, .inr (.inr ⟨rfl, w, i, hw, hd, hC⟩)⟩
    · rw [exec_STATUS_of_dst_ne_C hC hi, hs] at ht
      cases ht

/-- Settles O8: every branch that faults is a `raise`. -/
theorem faultsArePrecise : Obligations.FaultsArePrecise := by
  intro s t cause fpc fword hs h ht
  obtain ⟨hpc, hraise, -⟩ := step_faults_cases hs h ht
  exact ⟨hpc, hraise⟩

/-- Settles O3: a step that raises `FetchFault` fetched nothing, and that is where `pc` is no fetch offset. -/
theorem fetchFaultExactlyAtInvalidOffsets : Obligations.FetchFaultExactlyAtInvalidOffsets := by
  intro s hs hlen
  rw [← fetchable_iff, Bool.not_eq_true, ← State.fetchWord?_eq_none_iff]
  refine ⟨fun h => ?_, fun ⟨hpc, hw⟩ => step_of_fetchWord?_none hs hlen hpc hw⟩
  obtain ⟨-, -, ⟨-, hpc, hw⟩ | ⟨hcause, -⟩ | ⟨hcause, -⟩⟩ := step_faults_cases hs h rfl
  · exact ⟨hpc, hw⟩
  · cases hcause
  · cases hcause

/-- Settles O4: a step that raises `DecodeError` fetched a word the decoder rejects, which is one of opcode 7. -/
theorem decodeErrorExactlyOnOpcodeSeven : Obligations.DecodeErrorExactlyOnOpcodeSeven := by
  intro s w hf
  obtain ⟨hs, hlen, hw⟩ := (fetches_iff s w).1 hf
  rw [← opcode_eq_seven_iff]
  refine ⟨fun h => ?_, fun hop =>
    step_of_decodeWord_error hs hlen hw ((decodeWord_error_iff w .illegalOpcode).2 ⟨rfl, hop⟩)⟩
  obtain ⟨-, -, ⟨hcause, -⟩ | ⟨-, w', e, hw', hd⟩ | ⟨hcause, -⟩⟩ := step_faults_cases hs h rfl
  · cases hcause
  · cases hw.symm.trans hw'
    exact ((decodeWord_error_iff w e).1 hd).2
  · cases hcause

/-- Settles O5: the reserved form raises, with the word at `pc`; every other instruction completes. -/
theorem reservedDestinationFaults : Obligations.ReservedDestinationFaults := by
  refine ⟨fun s w i hf hd hC => ?_, fun s i hC => exec_of_dst_C s hC, fun s i hC => ?_⟩
  · obtain ⟨hs, hlen, hw⟩ := (fetches_iff s w).1 hf
    rw [step_of_fetchWord? hs hlen hw hd, exec_of_dst_C s hC, hw]
    rfl
  · obtain ⟨t, ht⟩ := exec_completes i s
    exact ⟨t, ht, exec_STATUS_of_dst_ne_C hC ht⟩

/-- From an offset that leaves room on an allowed image, the shared advance does not wrap (R31). -/
theorem State.toInt_advance_pc {s : State} (hlen : s.IMEM.length ≤ Config.maxImageBytes)
    (hf : fetchable s.pc s.IMEM.length = true) : s.advance.pc.toInt = s.pc.toInt + 2 := by
  obtain ⟨-, hnonneg, hroom⟩ := (fetchable_iff _ _).1 hf
  have hmax : Config.maxImageBytes = 2147483646 := rfl
  have htwo : (2 : Word).toInt = 2 := rfl
  rw [State.advance_pc, BitVec.toInt_add, htwo]
  exact Int.bmod_eq_of_le (by omega) (by omega)

/-- An instruction that is no taken Jump leaves the advanced `pc` (R124). -/
theorem nextPc_of_not_taken {i : Instr} {s : State} (h : ∀ target flag, i = .jump target flag → s.readReg flag = 0) :
    nextPc i s = s.pc + 2 := by
  cases i with
  | jump target flag => exact if_neg (not_not.2 (h target flag rfl))
  | _ => rfl

/-- Settles O10: the instruction leaves the advanced `pc`, and the fetch says that it does not pass `LEN`. -/
theorem sequentialAdvanceNeverWraps : Obligations.SequentialAdvanceNeverWraps := by
  intro s w i hf hd
  obtain ⟨hs, hlen, hw⟩ := (fetches_iff s w).1 hf
  have hfetch := State.fetchable_of_fetchWord? hw
  obtain ⟨heven, -, hroom⟩ := (fetchable_iff _ _).1 hfetch
  have hadv := State.toInt_advance_pc hlen hfetch
  refine ⟨hadv, fun hC hjump => ?_⟩
  obtain ⟨t, ht⟩ := exec_completes i s
  have hpc : t.pc.toInt = s.pc.toInt + 2 := by
    rw [exec_pc hC ht, nextPc_of_not_taken hjump]
    exact hadv
  have hmax : Config.maxImageBytes = 2147483646 := rfl
  exact ⟨t, step_of_fetchWord? hs hlen hw hd ▸ ht, hpc, by omega, by omega, by omega⟩

/-- Settles O33: the port carries an address where a running core fetches. -/
theorem instructionPortIsEvenAndInsideTheImage : Obligations.InstructionPortIsEvenAndInsideTheImage := by
  intro s p hp
  obtain ⟨⟨hs, hsome⟩, hpc⟩ := Option.ite_none_right_eq_some.1 hp
  obtain ⟨w, hw⟩ := Option.isSome_iff_exists.1 hsome
  obtain ⟨heven, hnonneg, hroom⟩ := (fetchable_iff _ _).1 (State.fetchable_of_fetchWord? hw)
  cases hpc
  refine ⟨heven, hnonneg, by omega, w, (if_pos hs).trans hw, fun hlen => (fetches_iff s w).2 ⟨hs, hlen, hw⟩⟩

end Sys2Proof.Machine
end

section
/-! PROOF. Frames: what an instruction leaves unchanged (`10_state.md` R21 to R30, `20_memory.md` R51 to R58). -/

namespace Sys2Proof.Machine

/-! ### What an operand write changes in the scratch file and in memory (R126) -/

/-- An operand write changes the selected scratch entry, by the name `T`, and no other. -/
theorem State.getElem_SCR_writeReg (s : State) (r : Reg) (v : Word) (j : BankIndex) :
    (s.writeReg r v).SCR[j] = if r = .T ∧ j = s.BANK then v else s.SCR[j] := by
  by_cases hr : r = .T
  · simp [hr, Vector.getElem_set, Fin.ext_iff, eq_comm]
  · simp [hr]

/-- An operand write changes the cell `A` selects, by the name `M`, and no other. -/
theorem State.read_DMEM_writeReg (s : State) (r : Reg) (v : Word) (a : Nat) :
    (s.writeReg r v).DMEM.read a = if r = .M ∧ a = s.dataAddr then v else s.DMEM.read a := by
  by_cases hr : r = .M
  · simp [hr, DMem.read_write]
  · simp [hr]

/-- Settles O29: an operand write reaches one register or entry; each other meaning's next state shows its fields. -/
theorem frameOfRegistersAndScratch : Obligations.FrameOfRegistersAndScratch := by
  intro i s t h
  rcases exec_cases h with ⟨hd, rfl⟩ | ⟨dst, hd, hne, rfl⟩ | ⟨k, c, hi, rfl⟩ | ⟨target, flag, rfl, -⟩ |
    ⟨lhs, code, rhs, rfl, rfl⟩ | ⟨k, rfl, rfl⟩
  · simp
  · simp only [State.advance_SCR, State.getElem_SCR_writeReg, hd, Option.some.injEq]
    simp +contextual
  · rcases hi with rfl | rfl <;> cases c <;> simp [Instr.dst?]
  · cases (exec_jump target flag s).symm.trans h
    simp
  · simp
  · simp

/-- Settles O30: an operand write reaches one cell of memory; each other meaning's next state shows its fields. -/
theorem frameOfMemoryAndControlState : Obligations.FrameOfMemoryAndControlState := by
  intro i s t h
  rcases exec_cases h with ⟨hd, rfl⟩ | ⟨dst, hd, hne, rfl⟩ | ⟨k, c, hi, rfl⟩ | ⟨target, flag, rfl, -⟩ |
    ⟨lhs, code, rhs, rfl, rfl⟩ | ⟨k, rfl, rfl⟩
  · simp [hd]
  · simp only [State.advance_DMEM, State.read_DMEM_writeReg, hd, Option.some.injEq]
    simp +contextual
  · rcases hi with rfl | rfl <;> simp
  · cases (exec_jump target flag s).symm.trans h
    simp
  · simp
  · simp

/-! ### The scratch entries that are not selected (R30) -/

/-- An operand read sees the selected entry alone. -/
theorem State.readReg_setSCR (s : State) {scr : Vector Word 8} (hsel : scr[s.BANK] = s.SCR[s.BANK]) (r : Reg) :
    ({ s with SCR := scr } : State).readReg r = s.readReg r := by
  cases r with
  | T => exact hsel
  | _ => rfl

/-- An operand write with another scratch file differs in the scratch file alone. -/
theorem State.writeReg_setSCR (s : State) (scr : Vector Word 8) (r : Reg) (v : Word) :
    ({ s with SCR := scr } : State).writeReg r v =
      { s.writeReg r v with SCR := (({ s with SCR := scr } : State).writeReg r v).SCR } := by
  cases r <;> rfl

theorem resultOf_setSCR (i : Instr) (s : State) {scr : Vector Word 8} (hsel : scr[s.BANK] = s.SCR[s.BANK]) :
    resultOf i { s with SCR := scr } = resultOf i s := by
  cases i <;> simp only [resultOf, State.readReg_setSCR s hsel]

/-- Settles O31: only an operand write changes the scratch file, and it changes the selected entry. -/
theorem unselectedScratchEntriesAreInvisible : Obligations.UnselectedScratchEntriesAreInvisible := by
  intro i s t scr hsel h
  rcases exec_cases h with ⟨hd, rfl⟩ | ⟨dst, hd, hne, rfl⟩ | ⟨k, c, hi, rfl⟩ | ⟨target, flag, rfl, -⟩ |
    ⟨lhs, code, rhs, rfl, rfl⟩ | ⟨k, rfl, rfl⟩
  · exact ⟨scr, exec_of_dst_C _ hd, hsel, fun _ _ => rfl⟩
  · refine ⟨(({ s with SCR := scr } : State).writeReg dst (resultOf i s)).SCR, ?_, ?_, fun j hj => ?_⟩
    · rw [exec_of_dst_ne_C _ hd hne, resultOf_setSCR i s hsel, State.writeReg_setSCR]
      rfl
    · rw [State.advance_SCR, State.getElem_SCR_writeReg, State.getElem_SCR_writeReg, hsel]
    · rw [State.getElem_SCR_writeReg, if_neg fun hT => hj hT.2]
  · rw [State.immStep_SCR]
    refine ⟨scr, ?_, hsel, fun _ _ => rfl⟩
    rcases hi with rfl | rfl <;> cases c <;> rfl
  · cases (exec_jump target flag s).symm.trans h
    refine ⟨scr, ?_, hsel, fun _ _ => rfl⟩
    simp only [exec_jump, Stmt.nextPc, State.readReg_setSCR s hsel]
    rfl
  · refine ⟨scr, ?_, hsel, fun _ _ => rfl⟩
    simp only [exec_comp, State.readReg_setSCR s hsel]
    rfl
  · exact ⟨scr, rfl, hsel, fun _ _ => rfl⟩

end Sys2Proof.Machine
end

section
/-! PROOF. The data memory as a value (`10_state.md` R34) and the data accesses of an instruction
(`20_memory.md` R61). -/

namespace Sys2Proof.Machine

/-! ### A memory in canonical form is determined by what it reads -/

/-- With addresses strictly rising, an entry is what its cell reads as. -/
theorem DMem.read_of_mem {m : DMem} {a : Nat} {v : Word} (hs : m.Pairwise (fun x y => x.1 < y.1))
    (h : (a, v) ∈ m) : m.read a = v := by
  induction m with
  | nil => cases h
  | cons cell m ih =>
    obtain ⟨b, u⟩ := cell
    obtain ⟨hlt, hs⟩ := List.pairwise_cons.1 hs
    rcases List.mem_cons.1 h with heq | hm
    · cases heq
      exact if_pos rfl
    · rw [DMem.read, if_neg (hlt (a, v) hm).ne']
      exact ih hs hm

/-- A cell that does not read as an unwritten one has an entry. -/
theorem DMem.mem_of_read_ne {m : DMem} {a : Nat} (h : m.read a ≠ Config.unwrittenCell) : (a, m.read a) ∈ m := by
  induction m with
  | nil => exact absurd rfl h
  | cons cell m ih =>
    obtain ⟨b, u⟩ := cell
    by_cases hab : a = b
    · simp [DMem.read, hab]
    · simp only [DMem.read, if_neg hab] at h ⊢
      exact List.mem_cons_of_mem _ (ih h)

/-- Entries of a canonical memory are entries of any memory that reads like it. -/
theorem DMem.subset_of_read_eq {m n : DMem} (hm : m.wf = true) (h : ∀ a, m.read a = n.read a) : m ⊆ n := by
  obtain ⟨hs, hc⟩ := (DMem.wf_iff m).1 hm
  rintro ⟨a, v⟩ hmem
  have hread : n.read a = v := (h a).symm.trans (DMem.read_of_mem hs hmem)
  exact hread ▸ DMem.mem_of_read_ne (hread ▸ (hc _ hmem).2)

/-- Settles O34: both memories have the same entries, and rising lists with the same entries are equal. -/
theorem memoriesThatReadAlikeAreEqual : Obligations.MemoriesThatReadAlikeAreEqual := by
  intro m n hm hn h
  have hirrefl : Std.Irrefl (fun x y : Nat × Word => x.1 < y.1) := ⟨fun x => lt_irrefl x.1⟩
  have hanti : Std.Antisymm (fun x y : Nat × Word => x.1 < y.1) := ⟨fun x y hxy hyx => absurd hxy hyx.asymm⟩
  exact List.Subset.antisymm_of_pairwise ((DMem.wf_iff m).1 hm).1 ((DMem.wf_iff n).1 hn).1
    (DMem.subset_of_read_eq hm h) (DMem.subset_of_read_eq hn fun a => (h a).symm)

/-! ### What an instruction does to memory -/

theorem exec_DMEM_of_dst_M {i : Instr} {s t : State} (hd : i.dst? = some .M) (h : exec i s = .next t) :
    t.DMEM = s.DMEM.write s.dataAddr (resultOf i s) := by
  cases (exec_of_dst_ne_C s hd (by decide)).symm.trans h
  simp

theorem exec_DMEM_of_dst_ne_M {i : Instr} {s t : State} (hd : i.dst? ≠ some .M) (h : exec i s = .next t) :
    t.DMEM = s.DMEM := by
  rcases exec_cases h with ⟨-, rfl⟩ | ⟨dst, hdst, -, rfl⟩ | ⟨k, c, -, rfl⟩ | ⟨target, flag, rfl, -⟩ |
    ⟨lhs, code, rhs, -, rfl⟩ | ⟨k, -, rfl⟩
  · simp
  · have hM : dst ≠ .M := fun hM => hd (hdst.trans (congrArg some hM))
    simp [hM]
  · simp
  · cases (exec_jump target flag s).symm.trans h
    simp
  · simp
  · simp

/-! ### The data port (R61, R270) -/

/-- The read half of `dataAccesses`: one read for each read field that names `M`. -/
def readAccesses (i : Instr) (s : State) : List Access :=
  (i.reads.filter (fun r => decide (r = .M))).map (fun _ => ⟨s.dataAddr, false, s.DMEM.read s.dataAddr⟩)

theorem eq_of_mem_readAccesses {i : Instr} {s : State} {x : Access} (hx : x ∈ readAccesses i s) :
    x = ⟨s.dataAddr, false, s.DMEM.read s.dataAddr⟩ := by
  obtain ⟨-, -, rfl⟩ := List.mem_map.1 hx
  rfl

theorem length_readAccesses_le (i : Instr) (s : State) : (readAccesses i s).length ≤ 2 := by
  have hreads : i.reads.length ≤ 2 := by cases i <;> simp [Instr.reads]
  rw [readAccesses, List.length_map]
  exact (List.length_filter_le _ _).trans hreads

theorem filter_dwrite_readAccesses (i : Instr) (s : State) :
    (readAccesses i s).filter (fun x => x.dwrite) = [] := by
  rw [List.filter_eq_nil_iff]
  intro x hx
  rw [eq_of_mem_readAccesses hx]
  exact Bool.false_ne_true

theorem length_filter_not_dwrite_readAccesses_le (i : Instr) (s : State) :
    ((readAccesses i s).filter (fun x => !x.dwrite)).length ≤ 2 :=
  (List.length_filter_le _ _).trans (length_readAccesses_le i s)

theorem dataAccesses_of_dst_C {i : Instr} (s : State) (hd : i.dst? = some .C) : dataAccesses i s = [] :=
  if_pos hd

theorem dataAccesses_of_dst_M {i : Instr} {s t : State} (hd : i.dst? = some .M) (h : exec i s = .next t) :
    dataAccesses i s = readAccesses i s ++ [⟨s.dataAddr, true, t.DMEM.read s.dataAddr⟩] := by
  simp [dataAccesses, readAccesses, hd, h]

theorem dataAccesses_of_no_write {i : Instr} (s : State) (hC : i.dst? ≠ some .C) (hM : i.dst? ≠ some .M) :
    dataAccesses i s = readAccesses i s := by
  rw [dataAccesses, if_neg hC, readAccesses]
  split
  · exact absurd ‹_› hM
  · exact List.append_nil _

/-- Settles O32: no access of a reserved form, reads and one write where `dst` is `M`, reads alone elsewhere. -/
theorem dataAccessesAreBoundedAndExact : Obligations.DataAccessesAreBoundedAndExact := by
  intro i s t h
  by_cases hC : i.dst? = some .C
  · cases (exec_of_dst_C s hC).symm.trans h
    simp [dataAccesses_of_dst_C s hC]
  by_cases hM : i.dst? = some .M
  · rw [dataAccesses_of_dst_M hM h, exec_DMEM_of_dst_M hM h, DMem.read_write, if_pos rfl]
    refine ⟨?_, ?_, fun x hx => ?_, fun x hx hw => ?_, fun hno => ?_⟩
    · rw [List.filter_append, List.length_append]
      exact length_filter_not_dwrite_readAccesses_le i s
    · rw [List.filter_append, filter_dwrite_readAccesses]
      exact le_rfl
    · rcases List.mem_append.1 hx with hx | hx
      · cases eq_of_mem_readAccesses hx
        exact ⟨rfl, fun _ => rfl⟩
      · cases List.mem_singleton.1 hx
        exact ⟨rfl, fun hr => by cases hr⟩
    · rcases List.mem_append.1 hx with hx | hx
      · cases eq_of_mem_readAccesses hx
        cases hw
      · cases List.mem_singleton.1 hx
        rfl
    · cases hno _ (List.mem_append_right _ List.mem_cons_self)
  · rw [dataAccesses_of_no_write s hC hM, exec_DMEM_of_dst_ne_M hM h]
    refine ⟨length_filter_not_dwrite_readAccesses_le i s, ?_, fun x hx => ?_, fun x hx hw => ?_, fun _ => rfl⟩
    · rw [filter_dwrite_readAccesses]
      exact Nat.zero_le 1
    · cases eq_of_mem_readAccesses hx
      exact ⟨rfl, fun _ => rfl⟩
    · cases eq_of_mem_readAccesses hx
      cases hw

end Sys2Proof.Machine
end

section
/-! PROOF. The invariant of a step and its base case (`10_state.md` R23, R34, R38; `40_pipeline.md` R121;
`60_exceptions.md` R230 to R234). -/

namespace Sys2Proof.Machine

/-! ### What an instruction keeps -/

/-- The one cell written is a cell address, so memory stays in canonical form (R34, R50). -/
theorem exec_keeps_wf {i : Instr} {s t : State} (hwf : s.DMEM.wf = true) (h : exec i s = .next t) :
    t.DMEM.wf = true := by
  by_cases hM : i.dst? = some .M
  · rw [exec_DMEM_of_dst_M hM h]
    exact DMem.wf_write _ _ _ hwf s.dataAddr_lt
  · rw [exec_DMEM_of_dst_ne_M hM h]
    exact hwf

theorem flagWord_eq_zero_or_one (r : Bool) : flagWord r = 0 ∨ flagWord r = 1 := by
  cases r
  · exact .inl rfl
  · exact .inr rfl

/-- `C` stays a flag: a Compare writes one and nothing else writes `C` (R23). -/
theorem exec_keeps_flag {i : Instr} {s t : State} (hC : s.C = 0 ∨ s.C = 1) (h : exec i s = .next t) :
    t.C = 0 ∨ t.C = 1 := by
  by_cases hi : ∃ lhs code rhs, i = .comp lhs code rhs
  · obtain ⟨lhs, code, rhs, rfl⟩ := hi
    cases (exec_comp lhs code rhs s).symm.trans h
    exact flagWord_eq_zero_or_one _
  · obtain ⟨-, -, -, -, -, hkeep, -⟩ := frameOfRegistersAndScratch i s t h
    rw [hkeep fun lhs code rhs hcomp => hi ⟨lhs, code, rhs, hcomp⟩]
    exact hC

/-! ### What `STATUS` says -/

theorem State.statusTrue_of_running {s : State} (hs : s.STATUS = .running) : s.statusTrue := by
  rw [State.statusTrue, hs]
  trivial

/-- An instruction that a running core fetched leaves a `STATUS` that says what is so (R234). -/
theorem exec_statusTrue {i : Instr} {s t : State} {w : InstrWord} (hs : s.STATUS = .running)
    (hw : s.fetchWord? = some w) (hd : decodeWord w = .ok i) (h : exec i s = .next t) : t.statusTrue := by
  by_cases hC : i.dst? = some .C
  · cases (exec_of_dst_C s hC).symm.trans h
    exact ⟨rfl, w, i, hw, hw, hd, decide_eq_false (not_not.2 hC)⟩
  · exact State.statusTrue_of_running ((exec_STATUS_of_dst_ne_C hC h).trans hs)

/-- Settles O35: one case per branch of the step. -/
theorem everyStepKeepsTheInvariant : Obligations.EveryStepKeepsTheInvariant := by
  rintro s t ⟨hwf, hflag, htrue⟩ h
  rcases step_cases h with ⟨-, rfl⟩ | ⟨hs, -, ⟨hpc, rfl⟩ | ⟨hpc, ⟨hw, rfl⟩ | ⟨w, e, hw, hd, rfl⟩ | ⟨w, i, hw, hd, hi⟩⟩⟩
  · exact ⟨hwf, hflag, htrue⟩
  · exact ⟨hwf, hflag, hpc⟩
  · exact ⟨hwf, hflag, rfl, rfl, hpc, s.fetchWord?_eq_none_iff.1 hw⟩
  · exact ⟨hwf, hflag, rfl, w, rfl, hw, ((decodeWord_error_iff w e).1 hd).2⟩
  · exact ⟨exec_keeps_wf hwf hi, exec_keeps_flag hflag hi, exec_statusTrue hs hw hd hi⟩

/-- Settles O36: memory is empty, `C` is 0 and the core runs. -/
theorem resetHasTheInvariant : Obligations.ResetHasTheInvariant := by
  have hboot (image : List Byte) : (State.boot image).Inv :=
    ⟨DMem.wf_nil, .inl rfl, State.statusTrue_of_running (State.boot_STATUS image)⟩
  exact ⟨hboot [], hboot⟩

/-- Settles O37: each element as `State.reset` gives it, the image as bound. -/
theorem resetClearsEveryElement : Obligations.ResetClearsEveryElement := by
  intro image
  have hscr (j : BankIndex) : (State.boot image).SCR[j] = 0 := Vector.getElem_replicate _
  exact ⟨rfl, rfl, rfl, rfl, rfl, rfl, hscr, rfl, rfl, rfl, rfl, DMem.read_nil, rfl⟩

end Sys2Proof.Machine
end

section
/-! PROOF. Operands, Copy, Jump, Compare and SetBank (`40_pipeline.md` R125; `42_copy.md`, `43_jump.md`,
`44_compare.md`, `46_setbank.md`). -/

namespace Sys2Proof.Machine

/-- Settles O11: the cases of the operand read. -/
theorem operandReadByRole : Obligations.OperandReadByRole := fun _ => ⟨rfl, rfl, rfl, rfl, rfl, rfl, rfl, rfl⟩

/-- Settles O19: an operand write of the operand read, then the advance. -/
theorem copyMovesTheOperand : Obligations.CopyMovesTheOperand := by
  intro src dst s hne
  rw [exec_of_dst_ne_C s rfl hne, State.advance_writeReg]
  rfl

/-- Settles O20: the store is an operand write of `M`, and the load a Copy from the cell it wrote. -/
theorem storeThenLoadReturnsTheValue : Obligations.StoreThenLoadReturnsTheValue := by
  intro src s
  refine ⟨_, copyMovesTheOperand src .M s (by decide), rfl, ?_, fun a ha => ?_, fun dst hne => ?_⟩
  · exact (DMem.read_write ..).trans (if_pos rfl)
  · exact (DMem.read_write ..).trans (if_neg ha)
  · rw [copyMovesTheOperand .M dst _ hne]
    have hload : ({ s.writeReg .M (s.readReg src) with pc := s.pc + 2 } : State).readReg .M = s.readReg src :=
      (DMem.read_write ..).trans (if_pos rfl)
    rw [hload]

/-- A word reads as 0 exactly where its pattern is 0. -/
theorem toInt_eq_zero_iff (x : Word) : x.toInt = 0 ↔ x = 0 := by
  rw [← BitVec.toInt_inj]
  rfl

/-- Settles O21: a Jump is one write of `pc`, to the target where the flag's value is not 0. -/
theorem jumpIsTakenOnAnyNonzeroFlag : Obligations.JumpIsTakenOnAnyNonzeroFlag := by
  intro target flag s
  rw [exec_jump, Stmt.nextPc, ne_eq, toInt_eq_zero_iff]
  refine ⟨fun h => ?_, fun h => ?_⟩
  · rw [if_pos h]
    rfl
  · rw [if_neg (not_not.2 h)]
    rfl

/-- Settles O23: the scratch file is kept and `BANK` is the new index. -/
theorem setBankSelectsTheEntry : Obligations.SetBankSelectsTheEntry := fun k s =>
  ⟨_, exec_sett k s, rfl, rfl, fun _ => rfl⟩

/-- The condition of a code is its mask on the three outcomes of the signed order (R181). -/
theorem condHolds_iff_mask (code : CmpCode) (a b : Int) : condHolds code a b = true ↔
    (code.code.getLsbD 0 = true ∧ a > b) ∨ (code.code.getLsbD 1 = true ∧ a = b) ∨
      (code.code.getLsbD 2 = true ∧ a < b) := by
  cases code <;> simp [condHolds, CmpCode.code] <;> omega

/-- A code and its bitwise complement are opposite conditions (R181). -/
theorem condHolds_of_complement {code code' : CmpCode} (h : code'.code = ~~~ code.code) (a b : Int) :
    condHolds code' a b = !condHolds code a b := by
  have hbit (n : Nat) (hn : n < 3) : code'.code.getLsbD n = !code.code.getLsbD n := by
    rw [h, BitVec.getLsbD_not, decide_eq_true hn, Bool.true_and]
  rw [Bool.eq_iff_iff, Bool.not_eq_true', ← Bool.not_eq_true, condHolds_iff_mask, condHolds_iff_mask,
    hbit 0 (by decide), hbit 1 (by decide), hbit 2 (by decide)]
  rcases lt_trichotomy a b with hab | hab | hab
  · simp [hab, hab.ne, hab.not_gt]
  · simp [hab]
  · simp [hab, hab.ne', hab.not_gt]

/-- Settles O22: the condition is the mask, and complementary codes write complementary flags. -/
theorem compareWritesTheMaskedCondition : Obligations.CompareWritesTheMaskedCondition := by
  refine ⟨fun lhs rhs code s => ?_, fun lhs rhs code code' s t t' hcode h h' => ?_⟩
  · simp only [← condHolds_iff_mask]
    exact exec_comp lhs code rhs s
  · cases (exec_comp lhs code rhs s).symm.trans h
    cases (exec_comp lhs code' rhs s).symm.trans h'
    simp only [State.advance_C, State.setFlag_C, condHolds_of_complement hcode]
    cases condHolds code (s.readReg lhs).toInt (s.readReg rhs).toInt <;> rfl

end Sys2Proof.Machine
end

section
/-! PROOF. AluOp (`45_alu.md` R190 to R198): what each operation's word reads as. -/

namespace Sys2Proof.Machine

open Sys2Proof.Stmt

/-- An AluOp that ends in `writeBack` of `op` has the result `f` wherever `op` reads as `f`. -/
theorem aluResult_of_writeBack {make : Reg → Reg → Reg → Instr} {op : Word → Word → Word} {f : Word → Word → Int}
    (hexec : ∀ lhs rhs dst s, exec (make lhs rhs dst) s = s.writeBack dst (op (s.readReg lhs) (s.readReg rhs)))
    (hop : ∀ a b, (op a b).toInt = f a b) : AluResult make f := by
  intro lhs rhs dst s hne
  refine ⟨_, hop _ _, ?_⟩
  rw [hexec, State.writeBack_of_ne _ _ _ hne, State.advance, State.writeReg_pc]

/-- Settles O14: each operation normalises the exact result once. -/
theorem addSubtractMultiplyWrap : Obligations.AddSubtractMultiplyWrap :=
  ⟨aluResult_of_writeBack (op := aluAdd) (fun _ _ _ _ => rfl) fun _ _ => toInt_ofVal _,
    aluResult_of_writeBack (op := aluSub) (fun _ _ _ _ => rfl) fun _ _ => toInt_ofVal _,
    aluResult_of_writeBack (op := aluMul) (fun _ _ _ _ => rfl) fun _ _ => toInt_ofVal _⟩

/-- Division toward zero is the quotient of the magnitudes with the product of the signs (D17). -/
theorem tdiv_eq_sign_mul_natAbs_div (a b : Int) :
    a.tdiv b = a.sign * b.sign * ((a.natAbs / b.natAbs : Nat) : Int) := by
  rw [← Int.sign_mul_natAbs (a.tdiv b), Int.natAbs_tdiv, Int.sign_tdiv]
  split
  next hlt => simp [Nat.div_eq_of_lt hlt]
  next => rfl

/-- Settles O15: the model's quotient toward zero is the statement's formula by signs and magnitudes. -/
theorem divideTruncatesTowardZero : Obligations.DivideTruncatesTowardZero := by
  refine aluResult_of_writeBack (op := aluDiv) (fun _ _ _ _ => rfl) fun a b => ?_
  simp only [aluDiv, toInt_eq_zero_iff, ← tdiv_eq_sign_mul_natAbs_div]
  split
  · rfl
  · exact toInt_ofVal _

/-- A right shift by 32 or more leaves nothing of a 32-bit pattern. -/
theorem wrap32_shiftRight_eq_zero (a b : Word) (hb : 32 ≤ b.toNat) :
    wrap32 ((a.toNat / 2 ^ b.toNat : Nat) : Int) = 0 := by
  have hlt : a.toNat < 2 ^ b.toNat := a.isLt.trans_le (Nat.pow_le_pow_right (by decide) hb)
  rw [Nat.div_eq_of_lt hlt]
  rfl

/-- A left shift by 32 or more gives a multiple of 2^32. -/
theorem wrap32_shiftLeft_eq_zero (a b : Word) (hb : 32 ≤ b.toNat) :
    wrap32 ((a.toNat * 2 ^ b.toNat : Nat) : Int) = 0 := by
  rw [wrap32_eq_bmod]
  exact Int.bmod_eq_zero_of_dvd (Int.natCast_dvd_natCast.2 (Dvd.dvd.mul_left (pow_dvd_pow 2 hb) a.toNat))

/-- Settles O17: the model's guard on the count gives the unguarded formula's value. -/
theorem shiftsActOnThePatternByTheFullCount : Obligations.ShiftsActOnThePatternByTheFullCount := by
  refine ⟨aluResult_of_writeBack (op := aluRmv) (fun _ _ _ _ => rfl) fun a b => ?_,
    aluResult_of_writeBack (op := aluLmv) (fun _ _ _ _ => rfl) fun a b => ?_, wrap32_shiftRight_eq_zero,
    wrap32_shiftLeft_eq_zero⟩
  · rw [aluRmv]
    split
    next hb => exact (wrap32_shiftRight_eq_zero a b hb).symm
    next => exact toInt_ofVal _
  · rw [aluLmv]
    split
    next hb => exact (wrap32_shiftLeft_eq_zero a b hb).symm
    next => exact toInt_ofVal _

/-- `sext_n` of a number of `n` bits is the balanced remainder by 2^n (R11). -/
theorem sext_eq_bmod {n b : Nat} (hn : 0 < n) (hb : b < 2 ^ n) : sext n b = (b : Int).bmod (2 ^ n) := by
  have hhalf : b < 2 ^ (n - 1) ↔ 2 * b < 2 ^ n := by
    rw [← mul_pow_sub_one hn.ne' 2]
    omega
  rw [← BitVec.toInt_ofNat', BitVec.toInt_eq_toNat_cond, BitVec.toNat_ofNat, Nat.mod_eq_of_lt hb, sext]
  simp only [hhalf, Nat.cast_pow, Nat.cast_ofNat]

/-- `sext_32` of a word's pattern is its value (R11). -/
theorem sext_toNat (w : Word) : sext 32 w.toNat = w.toInt := by
  rw [sext_eq_bmod (by decide) w.isLt, BitVec.toInt_eq_toNat_bmod]

/-- Settles O18: the pattern's number read with `sext_32` is the word's value. -/
theorem andOrActBitByBit : Obligations.AndOrActBitByBit := by
  refine ⟨aluResult_of_writeBack (op := aluAnd) (fun _ _ _ _ => rfl) fun a b => ?_,
    aluResult_of_writeBack (op := aluOr) (fun _ _ _ _ => rfl) fun a b => ?_,
    fun _ _ _ _ => BitVec.getLsbD_and, fun _ _ _ _ => BitVec.getLsbD_or⟩
  · rw [← BitVec.toNat_and, sext_toNat, aluAnd]
  · rw [← BitVec.toNat_or, sext_toNat, aluOr]

end Sys2Proof.Machine
end

section
/-! PROOF. The immediates (`41_immediate.md` R140 to R147, `10_state.md` R32, R36). -/

namespace Sys2Proof.Machine

open Sys2Proof.Stmt

/-! ### Strings of chunks as numbers (R8, R11) -/

theorem chunkNumber_append_singleton (ks : List Chunk) (k : Chunk) :
    chunkNumber (ks ++ [k]) = chunkNumber ks * 4096 + k.toNat := by
  simp only [chunkNumber, List.map_append, List.map_cons, List.map_nil, List.reverse_append, List.reverse_cons,
    List.reverse_nil, List.nil_append, List.cons_append, Nat.ofDigits_cons]
  ring

theorem chunkNumber_cons (k : Chunk) (ks : List Chunk) :
    chunkNumber (k :: ks) = k.toNat * 2 ^ (12 * ks.length) + chunkNumber ks := by
  simp only [chunkNumber, List.map_cons, List.reverse_cons, Nat.ofDigits_append, List.length_reverse,
    List.length_map, Nat.ofDigits_singleton, pow_mul, Nat.reducePow]
  ring

theorem chunkNumber_lt (ks : List Chunk) : chunkNumber ks < 2 ^ (12 * ks.length) := by
  induction ks with
  | nil => decide
  | cons k ks ih =>
    have := k.isLt
    rw [chunkNumber_cons, List.length_cons, Nat.mul_succ, pow_add]
    nlinarith

/-- The model's number of a string, folded from the left, is the statements' number, taken by digits. -/
theorem chunksNat_eq_chunkNumber (ks : List Chunk) : chunksNat ks = chunkNumber ks := by
  induction ks using List.reverseRecOn with
  | nil => rfl
  | append_singleton ks k ih => rw [chunkNumber_append_singleton, ← ih, chunksNat, List.foldl_append]; rfl

theorem sextBits_eq_chunkValue (ks : List Chunk) : sextBits ks = chunkValue ks := by
  rw [sextBits, chunksNat_eq_chunkNumber]
  rfl

/-- The integer of a nonempty string is its number's balanced remainder. -/
theorem chunkValue_eq_bmod {ks : List Chunk} (hne : ks ≠ []) :
    chunkValue ks = (chunkNumber ks : Int).bmod (2 ^ (12 * ks.length)) :=
  sext_eq_bmod (Nat.mul_pos (by decide) (List.length_pos_iff.2 hne)) (chunkNumber_lt ks)

/-- A single chunk is its own value, which needs no normalisation. -/
theorem chunkValue_singleton (k : Chunk) : chunkValue [k] = k.toInt := by
  rw [chunkValue_eq_bmod (by simp), BitVec.toInt_eq_toNat_bmod]
  simp [chunkNumber]

/-! ### One immediate (R142) -/

/-- The value of a word of at most 32 bits needs no normalisation. -/
theorem wrap32_toInt {n : Nat} (hn : n ≤ 32) (x : BitVec n) : wrap32 x.toInt = x.toInt := by
  have hpow : (2 : Int) ^ (n - 1) ≤ 2 ^ 31 := pow_le_pow_right₀ (by decide) (by omega)
  have hlo := x.le_toInt
  have hhi := x.toInt_lt
  exact wrap32_eq_self (by omega) (by omega)

theorem State.immStep_true (s : State) (k : Chunk) :
    s.immStep k true = { s with PEND := s.PEND ++ [k], pc := s.pc + 2 } := rfl

theorem State.immStep_false (s : State) (k : Chunk) :
    s.immStep k false = { s with V := ofVal (sextBits (s.PEND ++ [k])), PEND := [], pc := s.pc + 2 } := rfl

/-- Settles O24: with flag 0 the model's reading of the string is the statement's, and one chunk is in range. -/
theorem immediateStepAccumulatesOrFinalises : Obligations.ImmediateStepAccumulatesOrFinalises := by
  intro k s
  refine ⟨rfl, rfl, ofVal (sextBits (s.PEND ++ [k])), ?_, fun hempty => ?_, rfl, rfl⟩
  · rw [toInt_ofVal, sextBits_eq_chunkValue]
  · rw [toInt_ofVal, sextBits_eq_chunkValue, hempty, List.nil_append, chunkValue_singleton,
      wrap32_toInt (by decide)]

/-! ### Chains (R143) -/

theorem runInstrs_cons {i : Instr} {s t : State} (is : List Instr) (h : exec i s = .next t) :
    runInstrs (i :: is) s = runInstrs is t := by
  simp only [runInstrs, h]

theorem runInstrs_append {is js : List Instr} {s t : State} (h : runInstrs is s = .next t) :
    runInstrs (is ++ js) s = runInstrs js t := by
  induction is generalizing s with
  | nil =>
    cases h
    rfl
  | cons i is ih =>
    obtain ⟨u, hu⟩ := exec_completes i s
    rw [runInstrs_cons _ hu] at h
    rw [List.cons_append, runInstrs_cons _ hu]
    exact ih h

/-- The `pc` after one word and then `n` more. -/
theorem pc_add_words (p : Word) (n : Nat) : p + 2 + BitVec.ofNat 32 (2 * n) = p + BitVec.ofNat 32 (2 * (n + 1)) := by
  rw [Nat.mul_succ, Nat.add_comm, BitVec.ofNat_add, ← BitVec.add_assoc]
  rfl

/-- Extensions with flag 1 append their chunks (R141, R142). -/
theorem runInstrs_exti_true (ks : List Chunk) (s : State) : runInstrs (ks.map (fun k => .exti k true)) s =
    .next { s with PEND := s.PEND ++ ks, pc := s.pc + BitVec.ofNat 32 (2 * ks.length) } := by
  induction ks generalizing s with
  | nil => simp [runInstrs]
  | cons k ks ih =>
    rw [List.map_cons, runInstrs_cons _ (exec_exti k true s), ih, State.immStep_true]
    simp only [pc_add_words, List.append_assoc, List.singleton_append, List.length_cons]

/-- A proper part of a chain changes `PEND` and `pc` alone. -/
theorem runInstrs_chain_part (first : Chunk) (ks : List Chunk) {s : State} (hs : s.PEND = []) :
    runInstrs (.inpv first true :: ks.map (fun k => .exti k true)) s =
      .next { s with PEND := first :: ks, pc := s.pc + BitVec.ofNat 32 (2 * (ks.length + 1)) } := by
  rw [runInstrs_cons _ (exec_inpv first true s), runInstrs_exti_true, State.immStep_true]
  simp only [pc_add_words, hs, List.nil_append, List.singleton_append]

/-- Settles O25: the proper part, then the extension that finalises. -/
theorem chainLoadsItsWholeString : Obligations.ChainLoadsItsWholeString := by
  intro first last mids s hs
  refine ⟨⟨ofVal (sextBits (first :: mids ++ [last])), ?_, ?_⟩, fun n hn => ?_⟩
  · rw [toInt_ofVal, sextBits_eq_chunkValue]
  · rw [runInstrs_append (runInstrs_chain_part first mids hs)]
    rw [runInstrs_cons _ (exec_exti last false _), State.immStep_false]
    have hpc : s.pc + BitVec.ofNat 32 (2 * (mids.length + 1)) + 2 = s.pc + BitVec.ofNat 32 (2 * (mids.length + 2)) := by
      rw [add_right_comm, pc_add_words]
    simp only [runInstrs, hpc, hs, List.cons_append]
  · rw [runInstrs_chain_part first _ hs, List.length_take_of_le hn]

/-! ### The finite form of the accumulator (R36) -/

/-- Appending a chunk commutes with keeping the finite form. -/
theorem finPendOf_append_singleton (ks : List Chunk) (k : Chunk) :
    finPendOf (ks ++ [k]) = (finPendOf ks).append k := by
  have hlow : BitVec.ofNat 32 (chunkNumber ks * 4096 + k.toNat) =
      BitVec.ofNat 32 (chunkNumber ks) <<< 12 ||| k.setWidth 32 := by
    have hshift : (chunkNumber ks % 2 ^ 32) <<< 12 % 2 ^ 32 = (chunkNumber ks % 2 ^ 20) <<< 12 := by
      rw [Nat.shiftLeft_eq, Nat.shiftLeft_eq]
      omega
    have hk := k.isLt
    apply BitVec.eq_of_toNat_eq
    rw [BitVec.toNat_or, BitVec.toNat_shiftLeft, BitVec.toNat_ofNat, BitVec.toNat_ofNat, hshift,
      BitVec.toNat_setWidth_of_le (by decide), ← Nat.shiftLeft_add_eq_or_of_lt hk, Nat.shiftLeft_eq]
    omega
  simp only [finPendOf, FinPend.append, chunksNat_eq_chunkNumber, chunkNumber_append_singleton, hlow,
    List.length_append, List.length_singleton, FinPend.mk.injEq, and_true]
  omega

/-- `sext_n` of a number of at most 32 bits needs no normalisation. -/
theorem wrap32_sext {n b : Nat} (hn : 0 < n) (hle : n ≤ 32) (hb : b < 2 ^ n) : wrap32 (sext n b) = sext n b := by
  rw [sext_eq_bmod hn hb, ← BitVec.toInt_ofNat']
  exact wrap32_toInt hle _

/-- Finalising in the finite form: up to two chunks are kept whole, and of three or more the low 32 bits decide
the normalised value. -/
theorem value_finPendOf {ks : List Chunk} (hne : ks ≠ []) : (finPendOf ks).value = wrap32 (chunkValue ks) := by
  have hlt := chunkNumber_lt ks
  have hlen := List.length_pos_iff.2 hne
  rw [← sextBits_eq_chunkValue, sextBits]
  simp only [FinPend.value, finPendOf, BitVec.toNat_ofNat, chunksNat_eq_chunkNumber]
  rcases (by omega : ks.length = 1 ∨ ks.length = 2 ∨ 3 ≤ ks.length) with h | h | h
  · rw [h] at hlt ⊢
    rw [wrap32_sext (by decide) (by decide) hlt, Nat.mod_eq_of_lt (hlt.trans (by decide))]
    rfl
  · rw [h] at hlt ⊢
    rw [wrap32_sext (by decide) (by decide) hlt, Nat.mod_eq_of_lt (hlt.trans (by decide))]
    rfl
  · have hdvd : 2 ^ 32 ∣ 2 ^ (12 * ks.length) := pow_dvd_pow 2 (by omega)
    rw [if_neg (by omega), if_neg (by omega), sext_eq_bmod (by decide) (Nat.mod_lt _ (by decide)),
      sext_eq_bmod (by omega) hlt, wrap32_eq_bmod, Int.bmod_bmod_of_dvd hdvd, Int.natCast_mod, Int.emod_bmod]

/-- Settles O26: finalising after the append is finalising the finite form of the longer string. -/
theorem finitePendingFormIsEquivalent : Obligations.FinitePendingFormIsEquivalent := by
  intro ks k
  have happend := finPendOf_append_singleton ks k
  exact ⟨happend, by rw [← happend, value_finPendOf (by simp)]⟩

end Sys2Proof.Machine
end

section
/-! PROOF. The Encoder's immediate chaining (`41_immediate.md` R146, R147). -/

namespace Sys2Proof.Machine

open Sys2Proof.Stmt

/-! ### How many chunks a literal takes -/

/-- `minWidth n` bits with a sign hold `n`, and no fewer do (R147). -/
theorem minWidth_le_iff (n : Int) (w : Nat) : minWidth n ≤ w + 1 ↔ -(2 ^ w) ≤ n ∧ n < 2 ^ w := by
  have hbits (m : Nat) : (if m = 0 then 1 else m.log2 + 2) ≤ w + 1 ↔ m < 2 ^ w := by
    split
    next hm => simp [hm]
    next hm =>
      rw [← Nat.log2_lt hm]
      omega
  have hcast : ((2 ^ w : Nat) : Int) = 2 ^ w := by push_cast; rfl
  rw [minWidth, hbits]
  split <;> omega

/-- The chunk count is the least that leaves the guard bit (R147). -/
theorem chunkCount_le_iff (n : Int) {c : Nat} (hc : 1 ≤ c) : chunkCount n ≤ c ↔ fitsChunks n c := by
  obtain ⟨w, hw⟩ : ∃ w, 12 * c - 2 = w := ⟨_, rfl⟩
  rw [fitsChunks, hw, ← minWidth_le_iff, chunkCount]
  omega

/-! ### Cutting a number into chunks -/

theorem length_cutChunks (c b : Nat) : (cutChunks c b).length = c := by
  induction c with
  | zero => rfl
  | succ c ih => exact congrArg (· + 1) ih

theorem chunkNumber_cutChunks (c b : Nat) : chunkNumber (cutChunks c b) = b % 2 ^ (12 * c) := by
  induction c with
  | zero => simp [cutChunks, chunkNumber, Nat.mod_one]
  | succ c ih =>
    rw [cutChunks, chunkNumber_cons, length_cutChunks, ih, BitVec.toNat_ofNat, Nat.mul_succ, pow_add, Nat.mod_mul]
    ring

theorem chunkCount_pos (n : Int) : 1 ≤ chunkCount n := by
  rw [chunkCount]
  omega

theorem length_literalChunks (n : Int) : (literalChunks n).length = chunkCount n := length_cutChunks _ _

/-- The chunks of a literal denote it: it lies in the range of their width, guard bit and all (R147). -/
theorem chunkValue_literalChunks (n : Int) : chunkValue (literalChunks n) = n := by
  obtain ⟨hlo, hhi⟩ := (chunkCount_le_iff n (chunkCount_pos n)).1 le_rfl
  have hne : literalChunks n ≠ [] := List.ne_nil_of_length_pos (length_literalChunks n ▸ chunkCount_pos n)
  rw [chunkValue_eq_bmod hne, length_literalChunks, literalChunks, chunkNumber_cutChunks]
  have hcast : (2 : Int) ^ (12 * chunkCount n) = ((2 ^ (12 * chunkCount n) : Nat) : Int) := by push_cast; rfl
  have hguard : (2 : Int) ^ (12 * chunkCount n) = 2 ^ (12 * chunkCount n - 2) * 4 := by
    have := chunkCount_pos n
    rw [show (4 : Int) = 2 ^ 2 by decide, ← pow_add, Nat.sub_add_cancel (by omega)]
  rw [Int.natCast_mod, Int.emod_bmod, Int.toNat_of_nonneg (Int.emod_nonneg _ (by positivity)), hcast, Int.emod_bmod]
  exact Int.bmod_eq_of_le_mul_two (by omega) (by omega)

/-! ### The words of a literal -/

theorem chainTail_append_singleton (mids : List Chunk) (last : Chunk) :
    chainTail (mids ++ [last]) = mids.map (fun k => .exti k true) ++ [.exti last false] := by
  induction mids with
  | nil => rfl
  | cons k mids ih =>
    rw [List.cons_append, chainTail, ih]
    · rfl
    · simp

/-- A chain of two chunks or more, as its first, its middle and its last word. -/
theorem chain_of_first_last (first last : Chunk) (mids : List Chunk) : chain (first :: mids ++ [last]) =
    .inpv first true :: mids.map (fun k => .exti k true) ++ [.exti last false] := by
  rw [List.cons_append, chain, chainTail_append_singleton]
  · rfl
  · simp

theorem exists_first_mids_last {ks : List Chunk} (h : 2 ≤ ks.length) :
    ∃ first mids last, ks = first :: mids ++ [last] := by
  match ks, h with
  | first :: k :: ks, _ =>
    exact ⟨first, (k :: ks).dropLast, (k :: ks).getLast (by simp), by
      rw [List.cons_append, List.dropLast_append_getLast]⟩

theorem literalInstrs_of_direct {n : Int} (hlo : -2048 ≤ n) (hhi : n ≤ 2046) :
    literalInstrs n = [.inpv (BitVec.ofInt 12 n) false] :=
  if_pos (decide_eq_true ⟨hlo, hhi⟩)

theorem toInt_ofInt_of_direct {n : Int} (hlo : -2048 ≤ n) (hhi : n ≤ 2046) : (BitVec.ofInt 12 n).toInt = n := by
  rw [BitVec.toInt_ofInt]
  exact Int.bmod_eq_of_le (by omega) (by omega)

/-- Any other literal is a chain of the chunks that denote it. -/
theorem literalInstrs_of_not_direct {n : Int} (h : ¬(-2048 ≤ n ∧ n ≤ 2046)) : ∃ first mids last,
    literalChunks n = first :: mids ++ [last] ∧
      literalInstrs n = .inpv first true :: mids.map (fun k => .exti k true) ++ [.exti last false] := by
  have hcount : 2 ≤ (literalChunks n).length := by
    by_contra hlt
    obtain ⟨hlo, hhi⟩ := (chunkCount_le_iff n le_rfl).1 (by rw [← length_literalChunks]; omega)
    omega
  obtain ⟨first, mids, last, hks⟩ := exists_first_mids_last hcount
  refine ⟨first, mids, last, hks, ?_⟩
  rw [literalInstrs, if_neg (by simpa [fitsDirect] using h), hks, chain_of_first_last]

/-- Settles O28: the chain has `chunkCount n` words, the least count whose guarded width holds `n`. -/
theorem encoderEmitsDirectFormExactlyInRange : Obligations.EncoderEmitsDirectFormExactlyInRange := by
  intro n
  refine ⟨fun hlo hhi => ⟨_, toInt_ofInt_of_direct hlo hhi, literalInstrs_of_direct hlo hhi⟩, fun h => ?_⟩
  obtain ⟨first, mids, last, hks, hinstrs⟩ := literalInstrs_of_not_direct h
  have hlen : (literalInstrs n).length = chunkCount n := by
    rw [← length_literalChunks, hks, hinstrs]
    simp
  refine ⟨⟨first, last, mids, hinstrs⟩, ?_, fun c hc hfits => ?_⟩
  · rw [hlen]
    exact (chunkCount_le_iff n (chunkCount_pos n)).1 le_rfl
  · rw [hlen]
    exact (chunkCount_le_iff n hc).2 hfits

/-- Settles O27: in range the one chunk is the literal; else the chain loads the value its chunks denote. -/
theorem encodedLiteralLoadsItsValue : Obligations.EncodedLiteralLoadsItsValue := by
  intro n s hs
  by_cases h : -2048 ≤ n ∧ n ≤ 2046
  · obtain ⟨hlo, hhi⟩ := h
    have hval : sextBits (s.PEND ++ [BitVec.ofInt 12 n]) = n := by
      rw [hs, List.nil_append, sextBits_eq_chunkValue, chunkValue_singleton, toInt_ofInt_of_direct hlo hhi]
    refine ⟨ofVal n, toInt_ofVal n, ?_⟩
    rw [literalInstrs_of_direct hlo hhi, runInstrs_cons _ (exec_inpv _ false s), State.immStep_false, hval, runInstrs,
      hs]
    rfl
  · obtain ⟨first, mids, last, hks, hinstrs⟩ := literalInstrs_of_not_direct h
    obtain ⟨⟨v, hv, hrun⟩, -⟩ := chainLoadsItsWholeString first last mids s hs
    refine ⟨v, ?_, ?_⟩
    · rw [hv, ← hks, chunkValue_literalChunks]
    · rw [hinstrs, hrun]
      simp

end Sys2Proof.Machine
end

section
/-! PROOF. The spec's own words and lines (`30_encoding.md` R84 to R91, R100 to R106). -/

namespace Sys2Proof.Machine

/-- Settles O38, by evaluating the decoder on the fifteen words. -/
theorem wordsOfTheSpecDecode : Obligations.WordsOfTheSpecDecode := by
  unfold Obligations.WordsOfTheSpecDecode
  decide

/-- Settles O44, by evaluating the assembler on the lines. -/
theorem linesOfTextAssembleToTheirWords : Obligations.LinesOfTextAssembleToTheirWords := by
  unfold Obligations.LinesOfTextAssembleToTheirWords
  decide

end Sys2Proof.Machine
end
